-- ==== Sys2Proof/Word.lean ====
section
/-! DEFINITION. The word, the byte and the register index of the Rabbit core. -/

namespace Sys2Proof

/-- The machine's only native data size, a 32-bit unsigned integer (rule R3). -/
abbrev Word := BitVec 32

/-- One byte of an input or output stream or of a program image (rules R26, R151). -/
abbrev Byte := BitVec 8

/-- A register-file index: the 4-bit register field as it stands (rules R10, R80). -/
abbrev Reg := BitVec 4

end Sys2Proof
end

