-- ==== Sys2Proof/Syntax/Operand.lean ====
section
/-! DEFINITION. The operand forms of rule R58 and the mnemonics of rule R53. -/

namespace Sys2Proof

/-- An operand of the A or B slot (rule R58): `rn`, or `(rn)` when the slot's dereference flag is set. -/
inductive Operand where
  | direct (r : Reg)
  | indirect (r : Reg)
deriving DecidableEq, Repr

/-- An operand of the C slot (rule R58): `rn`, `(rn)`, `$v`, `($v)`. -/
inductive COperand where
  | direct (r : Reg)
  | indirect (r : Reg)
  | immediate (v : Word)
  | absolute (v : Word)
deriving DecidableEq, Repr

/-- The sixteen mnemonics of rule R53 (`inp` and `callBif` are the table's `in` and `bif`, which are keywords of Lean). -/
inductive Mnemonic where
  | halt | move | add | sub | mul | div | shr | shl | nand | xor
  | br | brz | brnz | inp | out | callBif
deriving DecidableEq, Repr

end Sys2Proof
end

