-- ==== Sys2Proof/Syntax.lean ====
section
/-! DEFINITION. The instructions: one constructor per row of the opcode table, with the operands of rule R54. -/

namespace Sys2Proof

/-- The instruction set (rules R2, R53, R54). Fields and flags an instruction has no operand for are not kept (rule R57).
Three-operand forms are `A, B, C`, `move` is `B, C`, one-operand forms are `C`. -/
inductive Instr where
  | halt
  | move (dst : Operand) (src : COperand)
  | add (dst b : Operand) (c : COperand)
  | sub (dst b : Operand) (c : COperand)
  | mul (dst b : Operand) (c : COperand)
  | div (dst b : Operand) (c : COperand)
  | shr (dst b : Operand) (c : COperand)
  | shl (dst b : Operand) (c : COperand)
  | nand (dst b : Operand) (c : COperand)
  | xor (dst b : Operand) (c : COperand)
  | br (target : COperand)
  | brz (target : COperand)
  | brnz (target : COperand)
  | inp (dst : COperand)
  | out (src : COperand)
  | callBif (id : COperand)
deriving DecidableEq, Repr

end Sys2Proof
end

