-- ==== Sys2Proof/Config.lean ====
section
/-! DEFINITION. The parameters of rule R6: the spec's fixed numbers, the instance's configuration record, and the
free values, which are constants with no body. -/

namespace Sys2Proof

namespace Config

/-- `REG_IP` (rule R11, the spec's decision D2). -/
def regIp : Reg := 10
/-- `REG_SP` (rule R11, decision D2). -/
def regSp : Reg := 11
/-- `REG_RET` (rule R11, decision D2). -/
def regRet : Reg := 12
/-- `REG_TMP` (rule R11, decision D2). -/
def regTmp : Reg := 13
/-- `REG_FLAGS` (rule R11, decision D2). -/
def regFlags : Reg := 14

/-- The bit of FLAGS that is the zero flag: bit 1 (rule R20). -/
def zBit : Nat := 1
/-- `FLAG_Z`, the mask of the zero flag (rule R6). -/
def flagZ : Word := 0x00000002

/-- `MODE_A`, the word bit of `rega_deref` (rule R52, decision D3). -/
def modeA : Nat := 24
/-- `MODE_B`, the word bit of `regb_deref` (rule R52, decision D3). -/
def modeB : Nat := 25
/-- `MODE_C`, the word bit of `regc_deref` (rule R52, decision D3). -/
def modeC : Nat := 26
/-- `MODE_IMM`, the word bit of `immediate` (rule R52, decision D3). -/
def modeImm : Nat := 27

/-- `BIF_HELLO_ID` (rule R144, decision D27). -/
def bifHelloId : Nat := 0

/-- The number of words a 32-bit address can name: the upper bound of `MEM_WORDS` (rule R31). -/
def maxMemWords : Nat := 2 ^ 32

end Config

/-- The plain-data parameters of one machine instance (rule R6): fixed at its creation (rule R185), never changed by a
step. DESIGN CHOICE (log 5): they travel with the state, so that a claim about every state is a claim about every
value of them. -/
structure Params where
  /-- `PROG_LEN`, the number of words of the loaded image. -/
  progLen : Nat
  /-- `STACK_RESERVE`, the words of memory above the program. -/
  stackReserve : Nat
  /-- `BIF_COUNT`, the size of the Bif Table. -/
  bifCount : Nat
  /-- `IN_EOF`, the word `in` writes at the end of the input stream. -/
  inEof : Word
  /-- `HELLO_TEXT`, the bytes the `hello` built-in writes. -/
  helloText : List Byte
deriving DecidableEq, Repr

/-- The two operations with a wide-shift case (rule R130). -/
inductive ShiftOp where
  | shr | shl
deriving DecidableEq, Repr

/-- What a built-in function's handler is handed (rules R143, R154): the whole register file, the whole memory and the
host's byte streams, under the instance's configuration (rule R143: the handler is fixed by it; log 8). -/
structure HandlerView where
  regs : Vector Word 16
  /-- The listed bytes; with `config`, which gives `MEM_WORDS`, they say every cell of `MEM[0 .. MEM_WORDS-1]`. -/
  mem : List Host.Cell
  config : Params
  input : List Byte
  inputEnded : Bool
  output : List Byte
deriving DecidableEq, Repr

/-- What a handler may do (rule R143), in a form that cannot leave its contract: any registers, words stored in memory,
a prefix of the input consumed, bytes appended to the output, a returned word (which the core discards, rule R142). -/
structure HandlerEffect where
  regs : Vector Word 16
  writes : List (Word × Word)
  consumed : Nat
  emitted : List Byte
  word : Word
deriving DecidableEq, Repr, Inhabited

namespace Config

/-- `SHIFT_WIDE(op, b, c)` for `c >= 32` (rule R130): a free value, a function of its arguments alone (log 6). -/
opaque shiftWide : ShiftOp → Word → Word → Word

/-- `BIF_TABLE` (rule R143): the handlers other than `hello`, by id. The second argument is the number of the call, so
that two calls on equal states need not agree (log 8). -/
opaque bifHandler : Nat → Nat → HandlerView → HandlerEffect

/-- `STACK_RESERVE` of the instance `State.reset` is (rule R31): any size a 32-bit address space allows (log 5). -/
opaque stackReserve : Fin (2 ^ 32 + 1)

/-- The entries of the Bif Table other than `hello`, so that `BIF_COUNT >= 1` (rules R6, R144; log 5). -/
opaque otherBifs : Nat

/-- `IN_EOF` of the instance `State.reset` is (rule R152; log 5). -/
opaque inEof : Word

/-- `HELLO_TEXT` of the instance `State.reset` is (rule R144; log 5). -/
opaque helloText : List Byte

/-- The host's numbering of the four statuses (rule R155): a bijection, so the four codes are distinct and otherwise
any (log 16). -/
opaque statusNumbering : Nat ≃ Nat

end Config

end Sys2Proof
end

