-- ==== Sys2Proof/WellFormed.lean ====
section
/-! DEFINITION. The one check an instruction can fail: the reserved combination of rule R63. -/

namespace Sys2Proof

/-- A C-slot operand that names a location (rule R58): every form but the literal `$v`. -/
def COperand.isLocation : COperand → Bool
  | .immediate _ => false
  | .direct _ => true
  | .indirect _ => true
  | .absolute _ => true

/-- Rule R63: `in` with a literal destination (`immediate = 1`, `regc_deref = 0`) is the one combination with no meaning. -/
def Instr.wellFormed : Instr → Bool
  | .inp dst => dst.isLocation
  | .halt => true
  | .move _ _ => true
  | .add _ _ _ => true
  | .sub _ _ _ => true
  | .mul _ _ _ => true
  | .div _ _ _ => true
  | .shr _ _ _ => true
  | .shl _ _ _ => true
  | .nand _ _ _ => true
  | .xor _ _ _ => true
  | .br _ => true
  | .brz _ => true
  | .brnz _ => true
  | .out _ => true
  | .callBif _ => true

end Sys2Proof
end

