-- ==== Sys2Proof/Decode.lean ====
section
/-! DEFINITION. The codec (rules R50 to R77): the Instruction Table, field extraction, the decoder on words and on
image bytes, and the encoder. -/

namespace Sys2Proof

/-! ### Bytes and words (rules R38, R151: big-endian) -/

/-- The word whose image bytes are `b0 b1 b2 b3`, `b0` in bits 31:24 (rules R38, R151). -/
def wordOfBytes (b0 b1 b2 b3 : Byte) : Word := b0 ++ b1 ++ b2 ++ b3

/-- Image byte `k` of a word, `k = 0` the most significant (rules R38, R67). -/
def byteOfWord (w : Word) (k : Nat) : Byte := w.extractLsb' (24 - 8 * k) 8

/-- The four image bytes of a word, most significant first (rules R38, R67). -/
def bytesOfWord (w : Word) : List Byte :=
  [byteOfWord w 0, byteOfWord w 1, byteOfWord w 2, byteOfWord w 3]

/-! ### The Instruction Table (rules R5, R53, R54, R74) -/

/-- A row of the Instruction Table: mnemonic, opcode number, operand count. -/
structure InstrRow where
  mnemonic : Mnemonic
  opcode : BitVec 4
  arity : Nat
deriving DecidableEq, Repr

/-- The Instruction Table (rule R53; the numbers are the spec's decision D4). -/
def instructionTable : List InstrRow :=
  [⟨.halt, 0, 0⟩, ⟨.move, 1, 2⟩, ⟨.add, 2, 3⟩, ⟨.sub, 3, 3⟩,
   ⟨.mul, 4, 3⟩, ⟨.div, 5, 3⟩, ⟨.shr, 6, 3⟩, ⟨.shl, 7, 3⟩,
   ⟨.nand, 8, 3⟩, ⟨.xor, 9, 3⟩, ⟨.br, 10, 1⟩, ⟨.brz, 11, 1⟩,
   ⟨.brnz, 12, 1⟩, ⟨.inp, 13, 1⟩, ⟨.out, 14, 1⟩, ⟨.callBif, 15, 1⟩]

/-- The table's row for an opcode, if it has one. -/
def rowOfOpcode (op : BitVec 4) : Option InstrRow :=
  instructionTable.find? fun row => row.opcode == op

/-- `recognized(op)` (rule R74). -/
def recognized (op : BitVec 4) : Bool := (rowOfOpcode op).isSome

/-- `arity(op)`, 0 for an unrecognized opcode (rule R74). -/
def arity (op : BitVec 4) : Nat :=
  match rowOfOpcode op with
  | some row => row.arity
  | none => 0

/-- `OPCODE(m)` (rules R6, R53). -/
def Mnemonic.opcode : Mnemonic → BitVec 4
  | .halt => 0
  | .move => 1
  | .add => 2
  | .sub => 3
  | .mul => 4
  | .div => 5
  | .shr => 6
  | .shl => 7
  | .nand => 8
  | .xor => 9
  | .br => 10
  | .brz => 11
  | .brnz => 12
  | .inp => 13
  | .out => 14
  | .callBif => 15

/-! ### The Decoded Instruction (rules R70 to R77) -/

/-- The Decoded Instruction: opcode, register fields, mode flags (rules R71, R72). -/
structure Fields where
  opcode : BitVec 4
  regaDeref : Bool
  regbDeref : Bool
  regcDeref : Bool
  immediate : Bool
  regc : Reg
  regb : Reg
  rega : Reg
deriving DecidableEq, Repr

/-- `decode(w)` (rules R70, R71, R72): pure bit extraction; bits 23:12 reach no output. -/
def Fields.ofWord (w : Word) : Fields where
  opcode := w.extractLsb' 28 4
  regaDeref := w.getLsbD Config.modeA
  regbDeref := w.getLsbD Config.modeB
  regcDeref := w.getLsbD Config.modeC
  immediate := w.getLsbD Config.modeImm
  regc := w.extractLsb' 8 4
  regb := w.extractLsb' 4 4
  rega := w.extractLsb' 0 4

/-- The mode nibble of the four flags (rule R52). -/
def Fields.modes (d : Fields) : Nat :=
  (d.regaDeref.toNat <<< (Config.modeA - 24)) + (d.regbDeref.toNat <<< (Config.modeB - 24))
    + (d.regcDeref.toNat <<< (Config.modeC - 24)) + (d.immediate.toNat <<< (Config.modeImm - 24))

/-- `d.reserved` (rule R76): `in` with `immediate = 1` and `regc_deref = 0`. -/
def Fields.reserved (d : Fields) : Bool :=
  (d.opcode == Mnemonic.opcode .inp) && d.immediate && !d.regcDeref

/-- `d.need_imm` (rule R75). -/
def Fields.needImm (d : Fields) : Bool :=
  d.immediate && recognized d.opcode && decide (1 ≤ arity d.opcode) && !d.reserved

/-- `d.illegal` (rule R77). -/
def Fields.illegal (d : Fields) : Bool := !recognized d.opcode || d.reserved

/-- The length of an instruction told from its first word (rule R59). -/
def wordLength (w : Word) : Nat :=
  if w.getLsbD Config.modeImm && decide (1 ≤ arity (w.extractLsb' 28 4)) then 2 else 1

/-- The operand an A-slot or B-slot field pair stands for (rule R58). -/
def operandOf (deref : Bool) (r : Reg) : Operand :=
  if deref then .indirect r else .direct r

/-- The operand the C slot stands for (rules R58, R81): with `immediate` set, `regc` is not used. -/
def cOperandOf (d : Fields) (imm : Word) : COperand :=
  if d.immediate then
    if d.regcDeref then .absolute imm else .immediate imm
  else
    if d.regcDeref then .indirect d.regc else .direct d.regc

/-- The instruction a mnemonic makes of its operands (rule R54); an operand it does not have is dropped (rule R57). -/
def Mnemonic.build : Mnemonic → Operand → Operand → COperand → Instr
  | .halt, _, _, _ => .halt
  | .move, _, b, c => .move b c
  | .add, a, b, c => .add a b c
  | .sub, a, b, c => .sub a b c
  | .mul, a, b, c => .mul a b c
  | .div, a, b, c => .div a b c
  | .shr, a, b, c => .shr a b c
  | .shl, a, b, c => .shl a b c
  | .nand, a, b, c => .nand a b c
  | .xor, a, b, c => .xor a b c
  | .br, _, _, c => .br c
  | .brz, _, _, c => .brz c
  | .brnz, _, _, c => .brnz c
  | .inp, _, _, c => .inp c
  | .out, _, _, c => .out c
  | .callBif, _, _, c => .callBif c

/-- The instruction of a Decoded Instruction and its Immediate Word (of no effect where there is none); none for an
illegal decode (rule R77). -/
def Fields.instr (d : Fields) (imm : Word) : Option Instr :=
  match rowOfOpcode d.opcode with
  | none => none
  | some row =>
    if d.reserved then none
    else some (row.mnemonic.build (operandOf d.regaDeref d.rega) (operandOf d.regbDeref d.regb) (cOperandOf d imm))

/-! ### The decoder on words and bytes -/

/-- Why a sequence of words or bytes is no instruction. -/
inductive DecodeError where
  /-- There is no instruction word. -/
  | noWord
  /-- The opcode is not in the Instruction Table (rule R62; no opcode, under the table of rule R53). -/
  | unrecognizedOpcode
  /-- `in` with a literal destination (rule R63). -/
  | reservedCombination
  /-- The announced Immediate Word is missing (rule R158). -/
  | missingImmediate
  /-- The bytes end inside a word (rule R151). -/
  | truncatedWord
deriving DecidableEq, Repr

/-- The instruction the given words begin with, and the words after it (rules R50, R59, R75, R77). -/
def decodeWords : List Word → Except DecodeError (Instr × List Word)
  | [] => .error .noWord
  | w :: rest =>
    let d := Fields.ofWord w
    if !recognized d.opcode then .error .unrecognizedOpcode
    else if d.needImm then
      match rest with
      | [] => .error .missingImmediate
      | imm :: rest' =>
        match d.instr imm with
        | some i => .ok (i, rest')
        | none => .error .reservedCombination
    else
      match d.instr 0 with
      | some i => .ok (i, rest)
      | none => .error .reservedCombination

/-- The words of a byte sequence, big-endian (rule R151); none where it is no whole number of words. -/
def imageWords : List Byte → Option (List Word)
  | [] => some []
  | b0 :: b1 :: b2 :: b3 :: rest =>
    match imageWords rest with
    | some ws => some (wordOfBytes b0 b1 b2 b3 :: ws)
    | none => none
  | _ => none

/-- The instruction a byte sequence begins with, and the words after it. -/
def decodeBytes (bs : List Byte) : Except DecodeError (Instr × List Word) :=
  match imageWords bs with
  | some ws => decodeWords ws
  | none => .error .truncatedWord

/-! ### The encoder (rules R60, R61, R67) -/

/-- `encode(opcode, modeFlags, regA, regB, regC)` (rule R60): every argument is masked to 4 bits (rule R61), bits
23:12 are zero. -/
def encodeWord (opcode modeFlags regA regB regC : Nat) : Word :=
  ((BitVec.ofNat 4 opcode).setWidth 32 <<< 28) ||| ((BitVec.ofNat 4 modeFlags).setWidth 32 <<< 24)
    ||| ((BitVec.ofNat 4 regC).setWidth 32 <<< 8) ||| ((BitVec.ofNat 4 regB).setWidth 32 <<< 4)
    ||| (BitVec.ofNat 4 regA).setWidth 32

/-- The word of a Decoded Instruction (rules R60, R73). -/
def Fields.toWord (d : Fields) : Word :=
  encodeWord d.opcode.toNat d.modes d.rega.toNat d.regb.toNat d.regc.toNat

/-- The slot's dereference flag (rule R58). -/
def Operand.deref : Operand → Bool
  | .direct _ => false
  | .indirect _ => true

/-- The slot's register field. -/
def Operand.reg : Operand → Reg
  | .direct r => r
  | .indirect r => r

/-- The C slot's dereference flag (rule R58). -/
def COperand.deref : COperand → Bool
  | .direct _ => false
  | .indirect _ => true
  | .immediate _ => false
  | .absolute _ => true

/-- The C slot's register field; 0 when the operand is an immediate (rule R67). -/
def COperand.reg : COperand → Reg
  | .direct r => r
  | .indirect r => r
  | .immediate _ => 0
  | .absolute _ => 0

/-- The Immediate Word of a C operand, if it has one (rules R50, R55). -/
def COperand.immediateWord : COperand → Option Word
  | .direct _ => none
  | .indirect _ => none
  | .immediate v => some v
  | .absolute v => some v

/-- The instruction's mnemonic. -/
def Instr.mnemonic : Instr → Mnemonic
  | .halt => .halt
  | .move _ _ => .move
  | .add _ _ _ => .add
  | .sub _ _ _ => .sub
  | .mul _ _ _ => .mul
  | .div _ _ _ => .div
  | .shr _ _ _ => .shr
  | .shl _ _ _ => .shl
  | .nand _ _ _ => .nand
  | .xor _ _ _ => .xor
  | .br _ => .br
  | .brz _ => .brz
  | .brnz _ => .brnz
  | .inp _ => .inp
  | .out _ => .out
  | .callBif _ => .callBif

/-- The A-slot operand, if the instruction has one (rule R54). -/
def Instr.slotA : Instr → Option Operand
  | .halt => none
  | .move _ _ => none
  | .add a _ _ => some a
  | .sub a _ _ => some a
  | .mul a _ _ => some a
  | .div a _ _ => some a
  | .shr a _ _ => some a
  | .shl a _ _ => some a
  | .nand a _ _ => some a
  | .xor a _ _ => some a
  | .br _ => none
  | .brz _ => none
  | .brnz _ => none
  | .inp _ => none
  | .out _ => none
  | .callBif _ => none

/-- The B-slot operand, if the instruction has one (rule R54). -/
def Instr.slotB : Instr → Option Operand
  | .halt => none
  | .move b _ => some b
  | .add _ b _ => some b
  | .sub _ b _ => some b
  | .mul _ b _ => some b
  | .div _ b _ => some b
  | .shr _ b _ => some b
  | .shl _ b _ => some b
  | .nand _ b _ => some b
  | .xor _ b _ => some b
  | .br _ => none
  | .brz _ => none
  | .brnz _ => none
  | .inp _ => none
  | .out _ => none
  | .callBif _ => none

/-- The C-slot operand, if the instruction has one (rule R54). -/
def Instr.slotC : Instr → Option COperand
  | .halt => none
  | .move _ c => some c
  | .add _ _ c => some c
  | .sub _ _ c => some c
  | .mul _ _ c => some c
  | .div _ _ c => some c
  | .shr _ _ c => some c
  | .shl _ _ c => some c
  | .nand _ _ c => some c
  | .xor _ _ c => some c
  | .br c => some c
  | .brz c => some c
  | .brnz c => some c
  | .inp c => some c
  | .out c => some c
  | .callBif c => some c

/-- The Decoded Instruction an instruction is encoded by: absent operands are zero (rule R67). -/
def Instr.fields (i : Instr) : Fields where
  opcode := i.mnemonic.opcode
  regaDeref := (i.slotA.map Operand.deref).getD false
  regbDeref := (i.slotB.map Operand.deref).getD false
  regcDeref := (i.slotC.map COperand.deref).getD false
  immediate := (i.slotC.bind COperand.immediateWord).isSome
  regc := (i.slotC.map COperand.reg).getD 0
  regb := (i.slotB.map Operand.reg).getD 0
  rega := (i.slotA.map Operand.reg).getD 0

/-- The words of an instruction: its Instruction Word, then its Immediate Word if the C operand is one (rule R67). -/
def encode (i : Instr) : List Word :=
  i.fields.toWord :: (i.slotC.bind COperand.immediateWord).toList

/-- The image bytes of an instruction (rule R67). -/
def encodeBytes (i : Instr) : List Byte := (encode i).flatMap bytesOfWord

/-- The number of words a C operand adds to its instruction (rule R50). -/
def COperand.extraWords : COperand → Nat
  | .direct _ => 0
  | .indirect _ => 0
  | .immediate _ => 1
  | .absolute _ => 1

/-- The number of words the core consumes for an instruction (rules R59, R107): 1, or 2 with an Immediate Word. The
reserved `in $v` fails before its Immediate Word is fetched (rule R63), so it consumes 1. -/
def Instr.length : Instr → Nat
  | .halt => 1
  | .move _ c => 1 + c.extraWords
  | .add _ _ c => 1 + c.extraWords
  | .sub _ _ c => 1 + c.extraWords
  | .mul _ _ c => 1 + c.extraWords
  | .div _ _ c => 1 + c.extraWords
  | .shr _ _ c => 1 + c.extraWords
  | .shl _ _ c => 1 + c.extraWords
  | .nand _ _ c => 1 + c.extraWords
  | .xor _ _ c => 1 + c.extraWords
  | .br c => 1 + c.extraWords
  | .brz c => 1 + c.extraWords
  | .brnz c => 1 + c.extraWords
  | .inp c => if c.isLocation then 1 + c.extraWords else 1
  | .out c => 1 + c.extraWords
  | .callBif c => 1 + c.extraWords

/-! ### The host's question -/

/-- The first two words of an instruction whose bits, numbered from the least significant bit of its first word, are
the low `nbits` bits of `w`; all higher bits are zero. -/
def tableWords (nbits w : Nat) : List Word :=
  [BitVec.ofNat 32 (w % 2 ^ nbits), BitVec.ofNat 32 ((w % 2 ^ nbits) / 2 ^ 32)]

/-- The instruction the decoder reads from those words, laid out as image bytes. -/
def decodeTableWord (nbits w : Nat) : Option Instr :=
  match decodeBytes ((tableWords nbits w).flatMap bytesOfWord) with
  | .ok (i, _) => some i
  | .error _ => none

/-! ### The decoding of every constructor, each word written out from rules R51, R52 and R53 -/

theorem decode_halt : decodeWords [0b0000_0000_000000000000_0000_0000_0000#32] = .ok (.halt, []) := by decide
theorem decode_move : decodeWords [0b0001_1010_000000000000_0000_1011_0000#32, 42#32]
    = .ok (.move (.indirect 11) (.immediate 42), []) := by decide
theorem decode_add : decodeWords [0b0010_1000_000000000000_0000_0010_0001#32, 5#32]
    = .ok (.add (.direct 1) (.direct 2) (.immediate 5), []) := by decide
theorem decode_sub : decodeWords [0b0011_0001_000000000000_0010_0010_0001#32]
    = .ok (.sub (.indirect 1) (.direct 2) (.direct 2), []) := by decide
theorem decode_mul : decodeWords [0b0100_0000_000000000000_0110_0101_0100#32]
    = .ok (.mul (.direct 4) (.direct 5) (.direct 6), []) := by decide
theorem decode_div : decodeWords [0b0101_1010_000000000000_0000_0010_0001#32, 0#32]
    = .ok (.div (.direct 1) (.indirect 2) (.immediate 0), []) := by decide
theorem decode_shr : decodeWords [0b0110_0100_000000000000_0011_0010_0001#32]
    = .ok (.shr (.direct 1) (.direct 2) (.indirect 3), []) := by decide
theorem decode_shl : decodeWords [0b0111_1100_000000000000_0000_0010_0001#32, 9#32]
    = .ok (.shl (.direct 1) (.direct 2) (.absolute 9), []) := by decide
theorem decode_nand : decodeWords [0b1000_0000_111111111111_0011_0010_0001#32]
    = .ok (.nand (.direct 1) (.direct 2) (.direct 3), []) := by decide
theorem decode_xor : decodeWords [0b1001_0000_000000000000_1110_1110_1110#32]
    = .ok (.xor (.direct 14) (.direct 14) (.direct 14), []) := by decide
theorem decode_br : decodeWords [0b1010_0100_000000000000_0010_0000_0000#32]
    = .ok (.br (.indirect 2), []) := by decide
theorem decode_brz : decodeWords [0b1011_1000_000000000000_0000_0000_0000#32, 4#32]
    = .ok (.brz (.immediate 4), []) := by decide
theorem decode_brnz : decodeWords [0b1100_0000_000000000000_0011_0000_0000#32]
    = .ok (.brnz (.direct 3), []) := by decide
theorem decode_inp : decodeWords [0b1101_1100_000000000000_0000_0000_0000#32, 5#32]
    = .ok (.inp (.absolute 5), []) := by decide
theorem decode_out : decodeWords [0b1110_1000_000000000000_0000_0000_0000#32, 10#32]
    = .ok (.out (.immediate 10), []) := by decide
theorem decode_bif : decodeWords [0b1111_0000_000000000000_0001_0000_0000#32]
    = .ok (.callBif (.direct 1), []) := by decide

end Sys2Proof
end

