-- ==== Sys2Proof/Machine/State.lean ====
section
/-! DEFINITION. The state of one machine instance (rules R10 to R29), its reset, and the reasons a step can stop. -/

namespace Sys2Proof.Machine

/-- The failure kinds of rule R165. -/
inductive FailKind where
  | illegalInstruction
  | illegalOperation
  | invalidBif
  | outOfRange
deriving DecidableEq, Repr

/-- The run state `RUN` (rules R22, R95). -/
inductive RunState where
  | running
  | halted
  | failed (kind : FailKind)
deriving DecidableEq, Repr

/-- The resolved destination of rule R84: a register slot or a memory cell. -/
inductive Dest where
  | reg (r : Reg)
  | mem (a : Word)
deriving DecidableEq, Repr

/-- Memory: the bytes that differ from what an unlisted byte reads as, by rising image byte offset. The word `MEM[a]`
is the bytes `4a` to `4a + 3`, most significant first, as in the program image (rules R38, R151). DESIGN CHOICE (log 1). -/
abbrev Memory := List Host.Cell

/-- The whole state of a machine instance. -/
structure State where
  /-- The register file, sixteen words (rule R10); slot 10 is IP and slot 14 is FLAGS (rule R11). -/
  regs : Vector Word 16
  /-- The memory array `MEM` (rule R23). -/
  mem : Memory
  /-- `RUN` (rule R22). -/
  run : RunState
  /-- `IN`: the bytes the host has supplied and no step has consumed (rule R26). -/
  input : List Byte
  /-- Whether the host has signalled the end of `IN` (rules R26, R152). -/
  inputEnded : Bool
  /-- `OUT`: the bytes written so far (rule R26). -/
  output : List Byte
  /-- The instance's parameters (rules R6, R185), which no step changes. -/
  params : Params
  /-- The number of oracle calls so far: the model's own field, the source of fresh free values (log 8). -/
  bifCalls : Nat
deriving DecidableEq, Repr

/-- A step never stops the model with a fault: the spec's failures are run states (rule R172, log 10), so there is no
reason to name and the type has no constructor. -/
inductive Fault where
deriving DecidableEq, Repr

/-- The reasons the model gives an instruction no meaning. -/
inductive Refusal where
  /-- Raised by an arm of `exec` whose instruction has no meaning yet, and by nothing else; safe. No arm raises it. -/
  | notModelled (mnemonic : String)
deriving DecidableEq, Repr

/-- The parameters of the instance `State.reset` is: the empty image, which rule R151 makes legal (log 4); what the spec
leaves open is a constant with no body (log 5). -/
def resetParams : Params where
  progLen := 0
  stackReserve := Config.stackReserve.val
  bifCount := Config.otherBifs + 1
  inEof := Config.inEof
  helloText := Config.helloText

/-- The machine right after `Reset` of the empty image (rules R27, R185): IP is 0, SP is `PROG_LEN` = 0, `RUN` is Running,
`OUT` is empty. DESIGN CHOICE: every register the spec gives no reset value is 0 (log 3), and the host has supplied no
input yet (log 4). -/
def State.reset : State where
  regs := Vector.replicate 16 0
  mem := []
  run := .running
  input := []
  inputEnded := false
  output := []
  params := resetParams
  bifCalls := 0

end Sys2Proof.Machine
end

