-- ==== Sys2Proof/Machine/Ops.lean ====
section
/-! DEFINITION. The named operations over memory, registers, the byte streams and the run state. -/

namespace Sys2Proof.Machine

/-! ### Memory as bytes (log 1, log 2) -/

/-- What a byte no entry lists reads as. DESIGN CHOICE: 00 (log 2). -/
def unlistedByte : Byte := 0x00

/-- The byte at image byte offset `k`. -/
def Memory.readByte : Memory → Nat → Byte
  | [], _ => unlistedByte
  | (k0, v0) :: m, k => if k0 = k then v0 else Memory.readByte m k

/-- Insert an entry before the first entry with a greater offset. -/
def Memory.insertByte : Memory → Nat → Byte → Memory
  | [], k, v => [(k, v)]
  | (k0, v0) :: m, k, v => if k < k0 then (k, v) :: (k0, v0) :: m else (k0, v0) :: Memory.insertByte m k v

/-- Write the byte at image byte offset `k`, keeping the canonical form: a byte that reads as unlisted is not listed. -/
def Memory.writeByte (m : Memory) (k : Nat) (v : Byte) : Memory :=
  let rest := m.filter fun cell => cell.1 != k
  if v = unlistedByte then rest else Memory.insertByte rest k v

/-- The word `MEM[a]` (rules R30, R38). -/
def Memory.readWord (m : Memory) (a : Nat) : Word :=
  wordOfBytes (Memory.readByte m (4 * a)) (Memory.readByte m (4 * a + 1)) (Memory.readByte m (4 * a + 2)) (Memory.readByte m (4 * a + 3))

/-- `MEM[a] <- v` (rules R30, R38). -/
def Memory.writeWord (m : Memory) (a : Nat) (v : Word) : Memory :=
  Memory.writeByte (Memory.writeByte (Memory.writeByte (Memory.writeByte m (4 * a) (byteOfWord v 0))
    (4 * a + 1) (byteOfWord v 1)) (4 * a + 2) (byteOfWord v 2)) (4 * a + 3) (byteOfWord v 3)

/-- The words `ws` written from address `a` upward (rules R151, R185). -/
def Memory.writeWords : Memory → Nat → List Word → Memory
  | m, _, [] => m
  | m, a, w :: ws => Memory.writeWords (Memory.writeWord m a w) (a + 1) ws

/-- The canonical form: offsets strictly rising, no entry equal to what an unlisted byte reads as. -/
def Memory.wf : Memory → Bool
  | [] => true
  | [(_, v)] => decide (v ≠ unlistedByte)
  | (k, v) :: (k', v') :: m => decide (v ≠ unlistedByte) && decide (k < k') && Memory.wf ((k', v') :: m)

/-! ### The address range (rules R31, R33) -/

/-- `MEM_WORDS = PROG_LEN + STACK_RESERVE` (rule R31). -/
def memWords (p : Params) : Nat := p.progLen + p.stackReserve

/-- Whether a word address is below `MEM_WORDS`: in the program or in the stack area above it (rules R31, R32). -/
def legalAddr (p : Params) (a : Nat) : Bool :=
  decide (a < p.progLen) || decide (a - p.progLen < p.stackReserve)

/-! ### Registers -/

/-- `x[r]` (rule R80). -/
def State.reg (s : State) (r : Reg) : Word := s.regs[r.toNat]'r.isLt

/-- `x[r] <- v` (rule R80): the whole word, no slot refuses it. -/
def State.setReg (s : State) (r : Reg) (v : Word) : State := { s with regs := s.regs.set r.toNat v r.isLt }

/-- `IP`, a register-file slot (rule R14). -/
def State.ip (s : State) : Word := s.reg Config.regIp

/-- `IP <- target` (rule R14). -/
def State.setIp (s : State) (target : Word) : State := s.setReg Config.regIp target

/-- `IP` advanced by `n` words modulo `2^32`, what the fetches of an instruction of `n` words do (rules R14, R15, R16). -/
def State.advance (s : State) (n : Nat) : State := s.setIp (s.ip + BitVec.ofNat 32 n)

/-! ### Memory access of the core -/

/-- `MemRead(a, 1)` (rule R33); none where it raises `OutOfRange`. -/
def State.memRead (s : State) (a : Word) : Option Word :=
  if legalAddr s.params a.toNat then some (Memory.readWord s.mem a.toNat) else none

/-- `MemWrite(a, 1, v)` (rule R34); none where it raises `OutOfRange`. -/
def State.memWrite (s : State) (a : Word) (v : Word) : Option State :=
  if legalAddr s.params a.toNat then some { s with mem := Memory.writeWord s.mem a.toNat v } else none

/-! ### Taking an exception, and ending -/

/-- `raise Failed(kind)` (rule R172): `RUN <- Failed(kind)`, everything done so far kept, nothing saved. There is no return
from a failure (rule R174), so no operation undoes this. -/
def State.fail (s : State) (kind : FailKind) : State := { s with run := .failed kind }

/-- `RUN <- Halted` (rule R115). -/
def State.halt (s : State) : State := { s with run := .halted }

/-! ### The byte streams and the bif port -/

/-- `InByte()` (rule R152): the first byte of `IN` zero-extended, or `IN_EOF` at the end of the stream; none while the
transaction is not enabled. -/
def State.inByte (s : State) : Option (Word × State) :=
  match s.input with
  | k :: rest => some (k.setWidth 32, { s with input := rest })
  | [] => if s.inputEnded then some (s.params.inEof, s) else none

/-- `OutByte(k)` (rule R153). -/
def State.outByte (s : State) (k : Byte) : State := { s with output := s.output ++ [k] }

/-- What a handler is handed (rule R154): every cell of memory, since `config` tells which exist. -/
def State.handlerView (s : State) : HandlerView where
  regs := s.regs
  mem := s.mem
  config := s.params
  input := s.input
  inputEnded := s.inputEnded
  output := s.output

/-- The handler's stores, in order. A store at or above `MEM_WORDS`, which rule R143 excludes, has no effect (log 8). -/
def storeAll : List (Word × Word) → Params → Memory → Memory
  | [], _, m => m
  | (a, v) :: rest, p, m =>
    storeAll rest p (if legalAddr p a.toNat then Memory.writeWord m a.toNat v else m)

/-- The state a handler leaves (rule R143): `RUN` and the parameters are not its to change; its word is discarded
(rule R142). -/
def State.applyEffect (s : State) (e : HandlerEffect) : State :=
  { s with
    regs := e.regs
    mem := storeAll e.writes s.params s.mem
    input := s.input.drop e.consumed
    output := s.output ++ e.emitted
    bifCalls := s.bifCalls + 1 }

/-- `BifCall(id)` for an `id` below `BIF_COUNT` (rules R143, R144, R154): `hello` appends its text and changes nothing
else; every other handler is the oracle. -/
def State.bifCall (s : State) (id : Nat) : State :=
  if id = Config.bifHelloId then { s with output := s.output ++ s.params.helloText }
  else s.applyEffect (Config.bifHandler id s.bifCalls s.handlerView)

end Sys2Proof.Machine
end

