-- ==== Sys2Proof/Machine/Flags.lean ====
section
/-! DEFINITION. The zero flag (rules R20, R21, R104), the machine's only flag. -/

namespace Sys2Proof.Machine

/-- `FLAGS`, a register-file slot (rule R20). -/
def State.flags (s : State) : Word := s.reg Config.regFlags

/-- `FLAGS[1]` (rule R20). -/
def State.zeroFlag (s : State) : Bool := s.flags.getLsbD Config.zBit

/-- `FLAGS <- FLAGS | 0x00000002` (rule R20). -/
def State.setZero (s : State) : State := s.setReg Config.regFlags (s.flags ||| Config.flagZ)

/-- Phase 7 of `sub` (rule R104): Z is set by a zero result and otherwise left alone (rule R21). -/
def State.flagUpdate (s : State) (result : Word) : State := if result = 0 then s.setZero else s

end Sys2Proof.Machine
end

