-- ==== Sys2Proof/Machine/Operands.lean ====
section
/-! DEFINITION. Operand resolution (rules R80 to R92): the addressing-mode multiplexer and the write-back. -/

namespace Sys2Proof.Machine

/-- `EffB(d)` (rule R82); none where the dereference raises `OutOfRange`. -/
def State.effB (s : State) : Operand → Option Word
  | .direct r => some (s.reg r)
  | .indirect r => s.memRead (s.reg r)

/-- `RawC(d, imm)` (rule R81). -/
def State.rawC (s : State) : COperand → Word
  | .direct r => s.reg r
  | .indirect r => s.reg r
  | .immediate v => v
  | .absolute v => v

/-- `EffC(d, imm)` (rule R83); none where the dereference raises `OutOfRange`. -/
def State.effC (s : State) (c : COperand) : Option Word :=
  if c.deref then s.memRead (s.rawC c) else some (s.rawC c)

/-- `DstA(d)` and `DstB(d)` (rule R84): the register, or the cell its contents name. -/
def State.dst (s : State) : Operand → Dest
  | .direct r => .reg r
  | .indirect r => .mem (s.reg r)

/-- `DstC(d, imm)` (rule R85); a literal is no location. -/
def State.dstC (s : State) : COperand → Option Dest
  | .direct r => some (.reg r)
  | .indirect r => some (.mem (s.reg r))
  | .immediate _ => none
  | .absolute v => some (.mem v)

/-- `WriteDst(dst, v)` (rule R88); none where the write raises `OutOfRange`. -/
def State.writeDst (s : State) (d : Dest) (v : Word) : Option State :=
  match d with
  | .reg r => some (s.setReg r v)
  | .mem a => s.memWrite a v

/-- Phases 6 and 7 (rules R88, R103, R104, R109): the one write of the step and, if it succeeds, what follows it; a
destination out of range ends the step with nothing written. -/
def State.finishWrite (s : State) (d : Dest) (v : Word) (after : State → State) : State :=
  match s.writeDst d v with
  | some t => after t
  | none => s.fail .outOfRange

/-- The destination the instruction resolves to when it starts at this state (rules R84, R85, R86): its address is
computed after the fetches have advanced IP. None for an instruction with no destination. -/
def destOf (i : Instr) (s : State) : Option Dest :=
  let s1 := s.advance i.length
  match i with
  | .halt => none
  | .move d _ => some (s1.dst d)
  | .add d _ _ => some (s1.dst d)
  | .sub d _ _ => some (s1.dst d)
  | .mul d _ _ => some (s1.dst d)
  | .div d _ _ => some (s1.dst d)
  | .shr d _ _ => some (s1.dst d)
  | .shl d _ _ => some (s1.dst d)
  | .nand d _ _ => some (s1.dst d)
  | .xor d _ _ => some (s1.dst d)
  | .br _ => none
  | .brz _ => none
  | .brnz _ => none
  | .inp c => s1.dstC c
  | .out _ => none
  | .callBif _ => none

end Sys2Proof.Machine
end

