-- ==== Sys2Proof/Machine/Alu.lean ====
section
/-! DEFINITION. The eight arithmetic and logic instructions (rules R120 to R130). -/

namespace Sys2Proof.Machine

open Host (Outcome)

/-! ### `ALU(op, b, c)` (rule R120): a function of the two effective values alone -/

/-- Rule R121: the sum modulo `2^32`. -/
def aluAdd (b c : Word) : Word := b + c
/-- Rule R122: the difference modulo `2^32`. -/
def aluSub (b c : Word) : Word := b - c
/-- Rule R123: the low 32 bits of the product. -/
def aluMul (b c : Word) : Word := b * c
/-- Rule R124: the floor of the unsigned quotient; division by zero raises `IllegalOperation` (rule R167). -/
def aluDiv (b c : Word) : Except FailKind Word := if c = 0 then .error .illegalOperation else .ok (b / c)
/-- Rule R125: logical shift right; the whole of `c` is the amount, and from 32 on the result is `SHIFT_WIDE`. -/
def aluShr (b c : Word) : Word := if c.toNat < 32 then b >>> c.toNat else Config.shiftWide .shr b c
/-- Rule R126: shift left; from 32 on the result is `SHIFT_WIDE`. -/
def aluShl (b c : Word) : Word := if c.toNat < 32 then b <<< c.toNat else Config.shiftWide .shl b c
/-- Rule R127: bitwise not-and. -/
def aluNand (b c : Word) : Word := ~~~(b &&& c)
/-- Rule R128: bitwise exclusive or. -/
def aluXor (b c : Word) : Word := b ^^^ c

/-- The common shape of rule R120: `b <- EffB; c <- EffC; dst <- DstA; r <- ALU(b, c); WriteDst(dst, r)`, then the flag
update `after r`. The first failure met ends the step (rule R171). -/
def aluStep (op : Word → Word → Except FailKind Word) (after : Word → State → State)
    (dst b : Operand) (c : COperand) (s : State) : Outcome State Fault Refusal :=
  let s1 := s.advance (1 + c.extraWords)
  match s1.effB b with
  | none => .next (s1.fail .outOfRange)
  | some bv =>
    match s1.effC c with
    | none => .next (s1.fail .outOfRange)
    | some cv =>
      match op bv cv with
      | .error kind => .next (s1.fail kind)
      | .ok r => .next (s1.finishWrite (s1.dst dst) r (after r))

/-- No flag update (rule R104): every operation but `sub`. -/
def keepFlags (_ : Word) (s : State) : State := s

/-- `add dst, b, c` (rule R121). -/
def execAdd (dst b : Operand) (c : COperand) (s : State) : Outcome State Fault Refusal :=
  aluStep (fun x y => .ok (aluAdd x y)) keepFlags dst b c s

/-- `sub dst, b, c` (rule R122): a zero result sets Z, after the write. -/
def execSub (dst b : Operand) (c : COperand) (s : State) : Outcome State Fault Refusal :=
  aluStep (fun x y => .ok (aluSub x y)) (fun r t => t.flagUpdate r) dst b c s

/-- `mul dst, b, c` (rule R123). -/
def execMul (dst b : Operand) (c : COperand) (s : State) : Outcome State Fault Refusal :=
  aluStep (fun x y => .ok (aluMul x y)) keepFlags dst b c s

/-- `div dst, b, c` (rule R124). -/
def execDiv (dst b : Operand) (c : COperand) (s : State) : Outcome State Fault Refusal :=
  aluStep aluDiv keepFlags dst b c s

/-- `shr dst, b, c` (rule R125). -/
def execShr (dst b : Operand) (c : COperand) (s : State) : Outcome State Fault Refusal :=
  aluStep (fun x y => .ok (aluShr x y)) keepFlags dst b c s

/-- `shl dst, b, c` (rule R126). -/
def execShl (dst b : Operand) (c : COperand) (s : State) : Outcome State Fault Refusal :=
  aluStep (fun x y => .ok (aluShl x y)) keepFlags dst b c s

/-- `nand dst, b, c` (rule R127). -/
def execNand (dst b : Operand) (c : COperand) (s : State) : Outcome State Fault Refusal :=
  aluStep (fun x y => .ok (aluNand x y)) keepFlags dst b c s

/-- `xor dst, b, c` (rule R128). -/
def execXor (dst b : Operand) (c : COperand) (s : State) : Outcome State Fault Refusal :=
  aluStep (fun x y => .ok (aluXor x y)) keepFlags dst b c s

end Sys2Proof.Machine
end

