-- ==== Sys2Proof/Machine/Branch.lean ====
section
/-! DEFINITION. The three branches (rules R135 to R139). -/

namespace Sys2Proof.Machine

open Host (Outcome)

/-- The shared shape: the target is resolved, and can fail, whether or not the branch is taken (rules R101, R136); a
branch not taken goes on after its own words (rule R139). -/
def branchStep (taken : State → Bool) (target : COperand) (s : State) : Outcome State Fault Refusal :=
  let s1 := s.advance (1 + target.extraWords)
  match s1.effC target with
  | none => .next (s1.fail .outOfRange)
  | some t => .next (if taken s1 then s1.setIp t else s1)

/-- `br target` (rule R135). -/
def execBr (target : COperand) (s : State) : Outcome State Fault Refusal :=
  branchStep (fun _ => true) target s

/-- `brz target` (rule R136): taken iff the zero flag is clear (conflict C2). -/
def execBrz (target : COperand) (s : State) : Outcome State Fault Refusal :=
  branchStep (fun t => !t.zeroFlag) target s

/-- `brnz target` (rule R137): taken iff the zero flag is set (conflict C2). -/
def execBrnz (target : COperand) (s : State) : Outcome State Fault Refusal :=
  branchStep (fun t => t.zeroFlag) target s

end Sys2Proof.Machine
end

