-- ==== Sys2Proof/Machine/HaltMove.lean ====
section
/-! DEFINITION. The meanings of `halt` and `move` (rules R115, R116). A meaning starts at the state whose IP is the
instruction's own address and does the fetches' IP increments itself (log 11). -/

namespace Sys2Proof.Machine

open Host (Outcome)

/-- `halt` (rule R115): `RUN <- Halted`; IP was incremented by the fetch. -/
def execHalt (s : State) : Outcome State Fault Refusal := .next (s.advance 1).halt

/-- `move dst, src` (rule R116): `v <- EffC; dst <- DstB; WriteDst(dst, v)`. -/
def execMove (dst : Operand) (src : COperand) (s : State) : Outcome State Fault Refusal :=
  let s1 := s.advance (1 + src.extraWords)
  match s1.effC src with
  | none => .next (s1.fail .outOfRange)
  | some v => .next (s1.finishWrite (s1.dst dst) v id)

end Sys2Proof.Machine
end

