-- ==== Sys2Proof/Machine/IoBif.lean ====
section
/-! DEFINITION. Byte input, byte output and built-in functions (rules R140 to R145). -/

namespace Sys2Proof.Machine

open Host (Outcome)

/-- `in dst` (rule R140): `dst <- DstC; v <- InByte(); WriteDst(dst, v)`. A literal destination is the reserved
combination, which fails before its Immediate Word is fetched (rule R63). While no byte is available and the end is not
signalled the step is not taken: the state is unchanged (rule R110, log 10). -/
def execInp (dst : COperand) (s : State) : Outcome State Fault Refusal :=
  let s1 := s.advance (1 + dst.extraWords)
  match s1.dstC dst with
  | none => .next ((s.advance 1).fail .illegalInstruction)
  | some d =>
    match s1.inByte with
    | none => .next s
    | some (v, s2) => .next (s2.finishWrite d v id)

/-- `out src` (rule R141): the low eight bits of the value are appended to `OUT`. -/
def execOut (src : COperand) (s : State) : Outcome State Fault Refusal :=
  let s1 := s.advance (1 + src.extraWords)
  match s1.effC src with
  | none => .next (s1.fail .outOfRange)
  | some v => .next (s1.outByte (v.setWidth 8))

/-- `bif id` (rule R142): an id at or above `BIF_COUNT`, compared as a full unsigned word, fails (conflict C4). -/
def execBif (id : COperand) (s : State) : Outcome State Fault Refusal :=
  let s1 := s.advance (1 + id.extraWords)
  match s1.effC id with
  | none => .next (s1.fail .outOfRange)
  | some v =>
    if v.toNat ≥ s1.params.bifCount then .next (s1.fail .invalidBif)
    else .next (s1.bifCall v.toNat)

end Sys2Proof.Machine
end

