-- ==== Sys2Proof/Machine/Dispatch.lean ====
section
/-! DEFINITION. One arm per instruction (rule R102). -/

namespace Sys2Proof.Machine

-- The instruction's whole effect at a state whose IP is the instruction's own address (log 11).
def exec (i : Instr) (s : State) : Host.Outcome State Fault Refusal :=
  match i with
  | .halt => Sys2Proof.Machine.execHalt s
  | .move dst src => Sys2Proof.Machine.execMove dst src s
  | .add dst b c => Sys2Proof.Machine.execAdd dst b c s
  | .sub dst b c => Sys2Proof.Machine.execSub dst b c s
  | .mul dst b c => Sys2Proof.Machine.execMul dst b c s
  | .div dst b c => Sys2Proof.Machine.execDiv dst b c s
  | .shr dst b c => Sys2Proof.Machine.execShr dst b c s
  | .shl dst b c => Sys2Proof.Machine.execShl dst b c s
  | .nand dst b c => Sys2Proof.Machine.execNand dst b c s
  | .xor dst b c => Sys2Proof.Machine.execXor dst b c s
  | .br target => Sys2Proof.Machine.execBr target s
  | .brz target => Sys2Proof.Machine.execBrz target s
  | .brnz target => Sys2Proof.Machine.execBrnz target s
  | .inp dst => Sys2Proof.Machine.execInp dst s
  | .out src => Sys2Proof.Machine.execOut src s
  | .callBif id => Sys2Proof.Machine.execBif id s

end Sys2Proof.Machine
end

