-- ==== Sys2Proof/Machine/Fetch.lean ====
section
/-! DEFINITION. Phases 1 to 3 of a step (rules R98, R99, R100): fetch, decode, immediate fetch. -/

namespace Sys2Proof.Machine

/-- The instruction at IP, or the state in which the step ends because it has none (rules R98 to R100, R109, R171): a
fetch out of range leaves IP, an illegal decode or a failing immediate fetch leaves IP one further. -/
def State.fetch (s : State) : Except State Instr :=
  match s.memRead s.ip with
  | none => .error (s.fail .outOfRange)
  | some w =>
    let d := Fields.ofWord w
    let s1 := s.advance 1
    if d.illegal then .error (s1.fail .illegalInstruction)
    else if d.needImm then
      match s1.memRead s1.ip with
      | none => .error (s1.fail .outOfRange)
      | some imm =>
        match d.instr imm with
        | some i => .ok i
        | none => .error (s1.fail .illegalInstruction)
    else
      match d.instr 0 with
      | some i => .ok i
      | none => .error (s1.fail .illegalInstruction)

/-- The parameters with the program grown, if need be, to take in the words below `len`, the stack area above it, and
`MEM_WORDS` within its bound (rules R31, R185). -/
def Params.withProgram (p : Params) (len : Nat) : Params :=
  { p with
    progLen := max p.progLen len
    stackReserve := min p.stackReserve (Config.maxMemWords - max p.progLen len) }

/-- The load of an image whose last instruction's two words are `ws`, standing where IP points (log 4): the words are
placed, the program's length takes them in, and the machine is Running. -/
def State.placeAtIp (s : State) (w0 w1 : Word) : State :=
  let a := s.ip
  let a1 := s.ip + 1
  { s with
    mem := Memory.writeWord (Memory.writeWord s.mem a.toNat w0) a1.toNat w1
    run := .running
    params := Params.withProgram s.params (max (a.toNat + 1) (a1.toNat + 1)) }

end Sys2Proof.Machine
end

