-- ==== Sys2Proof/Machine/Step.lean ====
section
/-! DEFINITION. One step of the machine (rules R96, R105). -/

namespace Sys2Proof.Machine

/-- `Step` (rules R96, R105, R156): in Halted and Failed nothing happens; in Running the instruction at IP is fetched and
executed, or the step ends in the failure its fetch met. -/
def step (s : State) : Host.Outcome State Fault Refusal :=
  match s.run with
  | .running =>
    match s.fetch with
    | .ok i => exec i s
    | .error t => .next t
  | .halted => .next s
  | .failed _ => .next s

/-- The state with an instruction placed where the next step fetches: its bits are the low `nbits` bits of `w`, numbered
from the least significant bit of its first word, and every higher bit is zero. -/
def State.withFetchWord (s : State) (nbits w : Nat) : State :=
  s.placeAtIp (BitVec.ofNat 32 (w % 2 ^ nbits)) (BitVec.ofNat 32 ((w % 2 ^ nbits) / 2 ^ 32))

end Sys2Proof.Machine
end

