-- ==== Sys2Proof/Machine/Assembly.lean ====
section
/-! DEFINITION. The toolchain's operand syntax, emission and rendering (rules R65 to R68), from tokens on: the scope file
leaves the tokeniser, the files and their errors out (log 15). The core uses none of this. -/

namespace Sys2Proof.Machine

/-- The body of an operand token (rules R65, R66): `$n`, `rn`, `@name`. -/
inductive TokenBody where
  | immediate (n : Nat)
  | register (n : Nat)
  | bifName (name : String)
deriving DecidableEq, Repr

/-- An operand token (rule R66): its body, and whether parentheses enclose it. -/
structure OperandToken where
  paren : Bool
  body : TokenBody
deriving DecidableEq, Repr

/-- The names of built-in functions and their ids; the spec names one (rule R144). -/
abbrev BifNames := List (String × Nat)

/-- The one name the spec gives (rule R144). -/
def knownBifs : BifNames := [("hello", Config.bifHelloId)]

/-- The id a name stands for. -/
def idOfName : BifNames → String → Option Nat
  | [], _ => none
  | (n, k) :: rest, name => if n = name then some k else idOfName rest name

/-- The name of an id. -/
def nameOfId : BifNames → Nat → Option String
  | [], _ => none
  | (n, k) :: rest, id => if k = id then some n else nameOfId rest id

/-- An A-slot or B-slot token: only a register stands there (rule R67); its number is reduced modulo 16 (rule R61). -/
def assembleOperand (t : OperandToken) : Option Operand :=
  match t.body with
  | .register n => some (operandOf t.paren (BitVec.ofNat 4 n))
  | .immediate _ => none
  | .bifName _ => none

/-- A C-slot token (rule R66): an immediate is reduced modulo `2^32`; a name stands only in a `bif` and is its id. -/
def assembleCOperand (names : BifNames) (m : Mnemonic) (t : OperandToken) : Option COperand :=
  match t.body with
  | .register n => some (if t.paren then .indirect (BitVec.ofNat 4 n) else .direct (BitVec.ofNat 4 n))
  | .immediate n => some (if t.paren then .absolute (BitVec.ofNat 32 n) else .immediate (BitVec.ofNat 32 n))
  | .bifName name =>
    if m = .callBif then
      match idOfName names name with
      | some k => some (if t.paren then .absolute (BitVec.ofNat 32 k) else .immediate (BitVec.ofNat 32 k))
      | none => none
    else none

/-- The three-operand instruction of three resolved tokens, if all resolve. -/
def assembleThree (names : BifNames) (m : Mnemonic) (a b c : OperandToken) : Option Instr :=
  match assembleOperand a, assembleOperand b, assembleCOperand names m c with
  | some x, some y, some z => some (m.build x y z)
  | _, _, _ => none

/-- The instruction of a mnemonic and its operand tokens, in slot order (rules R54, R66). -/
def assembleLine (names : BifNames) (m : Mnemonic) (ts : List OperandToken) : Option Instr :=
  match arity m.opcode, ts with
  | 0, [] => some (m.build (.direct 0) (.direct 0) (.direct 0))
  | 1, [c] => (assembleCOperand names m c).map (m.build (.direct 0) (.direct 0))
  | 2, [b, c] =>
    match assembleOperand b, assembleCOperand names m c with
    | some y, some z => some (m.build (.direct 0) y z)
    | _, _ => none
  | 3, [a, b, c] => assembleThree names m a b c
  | _, _ => none

/-- The image of a program: the concatenation of its instructions' words, each big-endian (rule R67). -/
def emitProgram (is : List Instr) : List Byte := is.flatMap encodeBytes

/-- An A-slot or B-slot operand as the disassembler prints it (rule R68). -/
def renderOperand : Operand → OperandToken
  | .direct r => ⟨false, .register r.toNat⟩
  | .indirect r => ⟨true, .register r.toNat⟩

/-- A C-slot operand as the disassembler prints it (rule R68). -/
def renderCOperand : COperand → OperandToken
  | .direct r => ⟨false, .register r.toNat⟩
  | .indirect r => ⟨true, .register r.toNat⟩
  | .immediate v => ⟨false, .immediate v.toNat⟩
  | .absolute v => ⟨true, .immediate v.toNat⟩

/-- The listing line of an instruction (rule R68). A `bif` is always shown by its function's name; one whose id no name
is known for has no listing line (log 15). -/
def renderInstr (names : BifNames) (i : Instr) : Option (Mnemonic × List OperandToken) :=
  match i.mnemonic, i.slotC with
  | .callBif, some (.immediate v) =>
    match nameOfId names v.toNat with
    | some name => some (.callBif, [⟨false, .bifName name⟩])
    | none => none
  | .callBif, _ => none
  | m, c => some (m, (i.slotA.map renderOperand).toList ++ (i.slotB.map renderOperand).toList ++ (c.map renderCOperand).toList)

/-- The text of an operand token (rules R66, R68). -/
def OperandToken.text (t : OperandToken) : String :=
  let body := match t.body with
    | .immediate n => "$" ++ toString n
    | .register n => "r" ++ toString n
    | .bifName name => "@" ++ name
  if t.paren then "(" ++ body ++ ")" else body

/-- The words the disassembler consumes for an instruction word (rule R68, conflict C8): as the core does, but no further
word for a `bif`. -/
def disassembledLength (w : Word) : Nat :=
  if w.extractLsb' 28 4 = Mnemonic.opcode .callBif then 1 else wordLength w

end Sys2Proof.Machine
end

