-- ==== Sys2Proof/Machine/HostPort.lean ====
section
/-! DEFINITION. The host's side of the interfaces (rules R150 to R159): image load and reset, the byte streams, status,
debug access, the loader's check. None of these is part of a step (rule R48). -/

namespace Sys2Proof.Machine

/-! ### Load and reset (rules R151, R185) -/

/-- What the host fixes when it creates an instance (rule R185): the parameters the image does not give, the register
values reset leaves unspecified (`RESET_REG`, rule R28), the stack area's words from `PROG_LEN` up (`RESET_MEM`; a word not
listed is 0, log 2), and the input supplied so far. -/
structure Launch where
  stackReserve : Nat
  bifCount : Nat
  inEof : Word
  helloText : List Byte
  resetReg : Vector Word 16
  resetMem : List Word
  input : List Byte
  inputEnded : Bool
deriving DecidableEq, Repr

/-- `Reset(image)` on the words of an image (rules R27, R156, R185, R186). -/
def State.launchWords (l : Launch) (ws : List Word) : State :=
  { regs := (l.resetReg.set Config.regIp.toNat 0 Config.regIp.isLt).set Config.regSp.toNat
      (BitVec.ofNat 32 ws.length) Config.regSp.isLt
    mem := Memory.writeWords [] 0 (ws ++ l.resetMem.take l.stackReserve)
    run := .running
    input := l.input
    inputEnded := l.inputEnded
    output := []
    params := {
      progLen := ws.length
      stackReserve := l.stackReserve
      bifCount := l.bifCount
      inEof := l.inEof
      helloText := l.helloText }
    bifCalls := 0 }

/-- `Reset(image)` on image bytes. There is no machine for an image that is no whole number of words (rule R151), for more
than `2^32` words of memory (rule R31), or for an empty Bif Table (rule R144). -/
def State.launch (l : Launch) (image : List Byte) : Option State :=
  match imageWords image with
  | none => none
  | some ws =>
    if ws.length + l.stackReserve ≤ Config.maxMemWords ∧ 1 ≤ l.bifCount then some (State.launchWords l ws) else none

/-- Whether a linear scan of an image (rule R59), of which the next `skip` words belong to an instruction already begun,
ends with every announced Immediate Word present. -/
def scanComplete : Nat → List Word → Bool
  | skip, [] => skip == 0
  | skip + 1, _ :: ws => scanComplete skip ws
  | 0, w :: ws => scanComplete (wordLength w - 1) ws

/-- The loader's optional check (rule R158): the image's last instruction is not truncated. -/
def imageComplete (ws : List Word) : Bool := scanComplete 0 ws

/-! ### The byte streams (rules R152, R153) -/

/-- The host appends bytes to `IN`; once it has signalled the end there is nothing more to append, so every `InByte()` after
the one that gave `IN_EOF` gives it again (rule R152, log 22). -/
def State.supplyInput (s : State) (bytes : List Byte) : State :=
  if s.inputEnded then s else { s with input := s.input ++ bytes }

/-- The host signals the end of `IN`. -/
def State.endInput (s : State) : State := { s with inputEnded := true }

/-! ### Status (rule R155) -/

/-- The four named statuses. -/
inductive Status where
  | success | failure | illegalInstruction | divideOverflow
deriving DecidableEq, Repr

/-- The status of a terminal run state; none while Running. -/
def RunState.status : RunState → Option Status
  | .running => none
  | .halted => some .success
  | .failed .illegalInstruction => some .illegalInstruction
  | .failed .illegalOperation => some .divideOverflow
  | .failed .invalidBif => some .failure
  | .failed .outOfRange => some .failure

/-- `STATUS_CODE` (rules R6, R155): four distinct numbers the spec does not give (log 16). -/
def statusCode : Status → Nat
  | .success => Config.statusNumbering 0
  | .failure => Config.statusNumbering 1
  | .illegalInstruction => Config.statusNumbering 2
  | .divideOverflow => Config.statusNumbering 3

/-- The host's exit code: a function of `RUN` alone (rule R192). -/
def State.exitCode (s : State) : Option Nat := s.run.status.map statusCode

/-! ### Debug access (rule R157) -/

/-- The host reads a register slot. -/
def State.debugReadReg (s : State) (r : Reg) : Word := s.reg r

/-- The host writes a register slot, before the first step (log 12). -/
def State.debugWriteReg (s : State) (r : Reg) (v : Word) : State := s.setReg r v

/-- The host reads a memory word; none for an address that does not exist. -/
def State.debugReadMem (s : State) (a : Word) : Option Word := s.memRead a

/-- The host writes a memory word, before the first step (log 12); none for an address that does not exist. -/
def State.debugWriteMem (s : State) (a : Word) (v : Word) : Option State := s.memWrite a v

end Sys2Proof.Machine
end

