-- ==== Sys2Proof/Machine/Run.lean ====
section
/-! DEFINITION. The host operation `Run` (rules R108, R156, R192): `Step` repeated while `RUN` is Running, the host acting on
the input stream between two steps. `Run` has no bound of its own (log 23). -/

namespace Sys2Proof.Machine

open Host (Outcome)

/-- All the host does to the machine between two steps of a run (rules R152, R156, R157): the bytes it supplies, and whether
it then signals the end. -/
structure HostAct where
  supplied : List Byte
  signalsEnd : Bool
deriving DecidableEq, Repr

/-- The host does nothing. -/
def HostAct.nothing : HostAct := ⟨[], false⟩

/-- The state the host's act leaves. -/
def State.hostAct (s : State) (act : HostAct) : State :=
  if act.signalsEnd then (s.supplyInput act.supplied).endInput else s.supplyInput act.supplied

/-- `Run` as far as a list of host acts goes: while `RUN` is Running the next act is made and one step taken; a terminal
state ends the run (rules R108, R192) and the acts left over are not made. -/
def State.runThrough : State → List HostAct → Outcome State Fault Refusal
  | s, [] => .next s
  | s, act :: acts =>
    match s.run with
    | .running =>
      match step (s.hostAct act) with
      | .next t => State.runThrough t acts
      | .fault r => .fault r
      | .refused r => .refused r
    | .halted => .next s
    | .failed _ => .next s

/-- The first `n` acts of a host. -/
def hostPrefix (host : Nat → HostAct) (n : Nat) : List HostAct := (List.range n).map host

/-- `Run` from `s`, with this host, is over in `t` (rule R192): some number of steps leads to `t`, and `t` is terminal. -/
def State.RunEnds (s : State) (host : Nat → HostAct) (t : State) : Prop :=
  ∃ n, s.runThrough (hostPrefix host n) = .next t ∧ t.run ≠ .running

/-- `Run` from `s`, with this host, goes on for ever (rules R108, R110, R192): after every number of steps `RUN` is Running. -/
def State.RunsForever (s : State) (host : Nat → HostAct) : Prop :=
  ∀ n, ∃ t, s.runThrough (hostPrefix host n) = .next t ∧ t.run = .running

end Sys2Proof.Machine
end

