-- ==== Sys2Proof/Safety.lean ====
section
/-! DEFINITION. The terms claims are stated in: the invariant of the machine, the successors of a state, and what an
instruction reads and writes. -/

namespace Sys2Proof.Machine

/-- The instance's parameters are ones an instance can have: at most `2^32` words of memory (rule R31) and a Bif Table of
at least one entry (rules R6, R144). -/
def Params.wf (p : Params) : Bool :=
  decide (memWords p ≤ Config.maxMemWords) && decide (1 ≤ p.bifCount)

/-- Every listed byte belongs to a word below `MEM_WORDS`: memory holds no cell that does not exist (rules R23, R31). -/
def Memory.within (m : Memory) (p : Params) : Bool := m.all fun cell => legalAddr p (cell.1 / 4)

/-- The invariant every step keeps: legal parameters, memory in its canonical form, no byte outside memory. -/
def State.Inv (s : State) : Prop :=
  Params.wf s.params = true ∧ Memory.wf s.mem = true ∧ Memory.within s.mem s.params = true

/-- `RUN` is terminal (rules R22, R192). -/
def RunState.terminal : RunState → Bool
  | .running => false
  | .halted => true
  | .failed _ => true

/-- Whether a destination can be written: a register always, a cell below `MEM_WORDS` (rules R34, R88). -/
def Dest.writable (d : Dest) (p : Params) : Bool :=
  match d with
  | .reg _ => true
  | .mem a => legalAddr p a.toNat

/-- The word a destination holds. -/
def State.readDest (s : State) (d : Dest) : Word :=
  match d with
  | .reg r => s.reg r
  | .mem a => Memory.readWord s.mem a.toNat

/-- Whether byte offset `k` is one of the four bytes of the word a destination names. -/
def Dest.covers (d : Dest) (k : Nat) : Bool :=
  match d with
  | .reg _ => false
  | .mem a => decide (4 * a.toNat ≤ k) && decide (k < 4 * a.toNat + 4)

/-- The two states agree on everything but the register file, memory and `RUN`. -/
def State.SameOutside (s t : State) : Prop :=
  t.input = s.input ∧ t.inputEnded = s.inputEnded ∧ t.output = s.output ∧ t.params = s.params ∧ t.bifCalls = s.bifCalls

/-- Waiting (rule R110): `IN` is empty and its end has not been signalled. -/
def State.waiting (s : State) : Bool := s.input.isEmpty && !s.inputEnded

/-- The state phases 4 to 7 of an instruction start from: the fetches have advanced IP past it (rules R14, R86). -/
def State.fetched (s : State) (i : Instr) : State := s.advance i.length

/-- At this state the sources of a three-operand instruction have the effective values `x` and `y`, and its destination
can be written (rules R86, R120). -/
def State.Resolves (s : State) (dst b : Operand) (c : COperand) (x y : Word) : Prop :=
  (s.advance (1 + c.extraWords)).effB b = some x ∧ (s.advance (1 + c.extraWords)).effC c = some y ∧
    ((s.advance (1 + c.extraWords)).dst dst).writable s.params = true

/-- `t` is `s` with IP at `ip` and nothing else different. -/
def State.OnlyIp (s t : State) (ip : Word) : Prop :=
  t.ip = ip ∧ (∀ r, r ≠ Config.regIp → t.reg r = s.reg r) ∧ t.mem = s.mem ∧ t.run = s.run ∧ State.SameOutside s t

/-- `t` is the state a step of `s` ends in that fails with `kind` after IP has moved to `ip`: nothing else is different
(rules R109, R172). -/
def State.FailsAt (s t : State) (kind : FailKind) (ip : Word) : Prop :=
  t.run = .failed kind ∧ t.ip = ip ∧ (∀ r, r ≠ Config.regIp → t.reg r = s.reg r) ∧ t.mem = s.mem ∧ State.SameOutside s t

end Sys2Proof.Machine
end

