-- ==== Sys2Proof/Certificates/Slice0/Obligations.lean ====
section
/-! DEFINITION. The statements for the provers. In every one `exec` starts at the state whose IP is the instruction's own
address, and `s.advance n` is that state with IP moved `n` words on, the state the operands are resolved in (rule R86). -/

open Sys2Proof Sys2Proof.Machine

/-! ### Encoding -/

/-- Rule R71: the four fields are the bits the rule names, and bits 23:12 reach no output. -/
def Obligations.FieldsAreTheRulesBits : Prop :=
  ∀ w : Word,
    (Fields.ofWord w).opcode.toNat = w.toNat >>> 28 &&& 0xF ∧
    (Fields.ofWord w).regc.toNat = w.toNat >>> 8 &&& 0xF ∧
    (Fields.ofWord w).regb.toNat = w.toNat >>> 4 &&& 0xF ∧
    (Fields.ofWord w).rega.toNat = w.toNat &&& 0xF ∧
    ∀ w' : Word, w &&& 0xFF000FFF = w' &&& 0xFF000FFF → Fields.ofWord w = Fields.ofWord w'

/-- Rule R61: register indices are masked to 4 bits, so index 17 encodes as index 1. -/
def Obligations.RegisterIndicesAreMasked : Prop :=
  (∀ op m a b c : Nat, encodeWord op m a b c = encodeWord op m (a % 16) (b % 16) (c % 16)) ∧
  ∀ op m x y : Nat, encodeWord op m 17 x y = encodeWord op m 1 x y ∧
    encodeWord op m x 17 y = encodeWord op m x 1 y ∧ encodeWord op m x y 17 = encodeWord op m x y 1

/-- The codec's round trips (`40_decoder.md`, "Round trip"): every combination of fields survives, and a word comes back
without its unused bits; and the four mode flags are the bits 24, 25, 26 and 27 of every word (decision D3). -/
def Obligations.CodecRoundTrips : Prop :=
  (∀ d : Fields, Fields.ofWord d.toWord = d) ∧
  (∀ w : Word, (Fields.ofWord w).toWord = w &&& 0xFF000FFF) ∧
  ∀ w : Word,
    ((Fields.ofWord w).regaDeref = true ↔ w.toNat >>> 24 &&& 1 = 1) ∧
    ((Fields.ofWord w).regbDeref = true ↔ w.toNat >>> 25 &&& 1 = 1) ∧
    ((Fields.ofWord w).regcDeref = true ↔ w.toNat >>> 26 &&& 1 = 1) ∧
    ((Fields.ofWord w).immediate = true ↔ w.toNat >>> 27 &&& 1 = 1)

/-- Decode of encode is the identity on every well-formed instruction with every operand, on words and on image bytes, and
leaves what follows untouched. The mode-bit positions and opcode numbers are the spec's decisions D3 and D4. -/
def Obligations.DecodeInvertsEncode : Prop :=
  ∀ (i : Instr) (rest : List Word), i.wellFormed = true →
    decodeWords (encode i ++ rest) = .ok (i, rest) ∧
    decodeBytes ((encode i ++ rest).flatMap bytesOfWord) = .ok (i, rest)

/-- The decoder refuses only `in` with a literal destination and a missing Immediate Word; every word it accepts is a
well-formed instruction of the length its first word announces (`30_encoding.md` sections 3 and 5, decision D11). -/
def Obligations.OnlyTheReservedWordIsRefused : Prop :=
  ∀ (w imm : Word) (rest : List Word),
    (w &&& 0xFC000000 = 0xD8000000 → decodeWords (w :: imm :: rest) = .error .reservedCombination) ∧
    (w &&& 0xFC000000 ≠ 0xD8000000 →
      ∃ i, i.wellFormed = true ∧ i.length = wordLength w ∧
        decodeWords (w :: imm :: rest) = .ok (i, (w :: imm :: rest).drop i.length))

/-- Words of the spec's own examples decode to the instructions they stand for (`40_decoder.md` section 3,
`95_test_vectors.md` section 2). -/
def Obligations.ExampleWordsDecode : Prop :=
  decodeWords [0x00000000] = .ok (.halt, []) ∧
  decodeWords [0x28000021, 5] = .ok (.add (.direct 1) (.direct 2) (.immediate 5), []) ∧
  decodeWords [0x30000221] = .ok (.sub (.direct 1) (.direct 2) (.direct 2), []) ∧
  decodeWords [0x1A0000B0, 42] = .ok (.move (.indirect 11) (.immediate 42), []) ∧
  decodeWords [0x14000B30] = .ok (.move (.direct 3) (.indirect 11), []) ∧
  decodeWords [0xABCDE321, 9] = .ok (.br (.immediate 9), []) ∧
  decodeWords [0xDC000000, 5] = .ok (.inp (.absolute 5), []) ∧
  decodeWords [0xD8000000, 5] = .error .reservedCombination

/-- The image of any list of well-formed instructions passes the loader's linear scan, and an image whose last
instruction word announces an Immediate Word that is not there does not
(`47_host_interfaces.md`, loader check; `30_encoding.md`, length rule; log 14). -/
def Obligations.EmittedProgramsScanComplete : Prop :=
  ∀ is : List Instr, (∀ i ∈ is, i.wellFormed = true) →
    imageComplete (is.flatMap encode) = true ∧
    ∀ i : Instr, i.wellFormed = true → (i.slotC.bind COperand.immediateWord).isSome = true →
      imageComplete (is.flatMap encode ++ [i.fields.toWord]) = false

/-- Assembling the listing line of an instruction gives the instruction back, `bif` excepted as the spec excepts it
(`30_encoding.md` section 6, `95_test_vectors.md` S3). -/
def Obligations.AssemblingAListingLineGivesItBack : Prop :=
  ∀ (names : BifNames) (i : Instr), i.mnemonic ≠ .callBif →
    ∃ line, renderInstr names i = some line ∧ assembleLine names line.1 line.2 = some i

/-! ### Reset and load -/

/-- Rule R185: the state `Reset` of an image leaves, for every choice of what the spec leaves open (rule R28: the
registers other than IP and SP hold any words). SP holds `PROG_LEN` wherever a register can (see `ResetStateIsALaunch`
for the one length that no register holds). -/
def Obligations.ResetLoadsTheImage : Prop :=
  ∀ (l : Launch) (image : List Byte) (s : State), State.launch l image = some s →
    4 * s.params.progLen = image.length ∧ s.params.stackReserve = l.stackReserve ∧ s.params.bifCount = l.bifCount ∧
    s.params.inEof = l.inEof ∧ s.params.helloText = l.helloText ∧ memWords s.params = s.params.progLen + l.stackReserve ∧
    (∀ a, a < s.params.progLen →
      Memory.readWord s.mem a = wordOfBytes (image.getD (4 * a) 0) (image.getD (4 * a + 1) 0)
        (image.getD (4 * a + 2) 0) (image.getD (4 * a + 3) 0)) ∧
    s.ip = 0 ∧ (s.params.progLen < 2 ^ 32 → (s.reg Config.regSp).toNat = s.params.progLen) ∧
    (∀ r, r ≠ Config.regIp → r ≠ Config.regSp → s.reg r = l.resetReg[r.toNat]'r.isLt) ∧
    s.run = .running ∧ s.output = [] ∧ s.input = l.input ∧ s.inputEnded = l.inputEnded

/-- There is a machine exactly for an image of whole words that fits the address space (`47_host_interfaces.md` section 2,
`20_memory.md` section 1, decision D25), with a Bif Table of at least one entry (`00_scope.md` section 4, `46_io_bif.md`,
decision D27). That a launch answers none for the other configurations is the model's inference (log 14). -/
def Obligations.ResetExactlyForLegalImages : Prop :=
  ∀ (l : Launch) (image : List Byte),
    (State.launch l image).isSome = true ↔
      4 ∣ image.length ∧ image.length / 4 + l.stackReserve ≤ 2 ^ 32 ∧ 1 ≤ l.bifCount

/-- `State.reset` is `Reset` of the empty image; the zero registers are the model's choice (log 3), the empty image too
(log 4). In every launch SP is `PROG_LEN` modulo `2^32`, the model's choice for an image of `2^32` words (log 21). -/
def Obligations.ResetStateIsALaunch : Prop :=
  ∃ l : Launch, State.launch l [] = some State.reset ∧ l.resetReg = Vector.replicate 16 0 ∧
    State.reset.ip = 0 ∧ State.reset.run = .running ∧ State.reset.output = [] ∧
    ∀ (l' : Launch) (image : List Byte) (s : State), State.launch l' image = some s →
      s.reg Config.regSp = BitVec.ofNat 32 s.params.progLen

/-- The state after reset meets the machine's invariant. -/
def Obligations.ResetMeetsTheInvariant : Prop := State.Inv State.reset

/-- Every launched machine meets the invariant. -/
def Obligations.LaunchMeetsTheInvariant : Prop :=
  ∀ (l : Launch) (image : List Byte) (s : State), State.launch l image = some s → State.Inv s

/-! ### The step -/

/-- Every step keeps the invariant: legal parameters, memory in canonical form, no byte outside memory. -/
def Obligations.StepKeepsTheInvariant : Prop :=
  ∀ s t : State, State.Inv s → step s = .next t → State.Inv t

/-- A step of a running machine executes the instruction the words at IP decode to; nothing stands around `exec`. -/
def Obligations.StepRunsTheDecodedInstruction : Prop :=
  ∀ (s : State) (w : Word) (i : Instr), s.run = .running → s.memRead s.ip = some w →
    (decodeWords [w] = .ok (i, []) ∨
      ∃ imm, s.memRead (s.ip + 1) = some imm ∧ decodeWords [w, imm] = .ok (i, [])) →
    i.wellFormed = true ∧ step s = exec i s

/-- Rule R96: in Halted and in Failed a step changes nothing. -/
def Obligations.TerminalStatesStay : Prop :=
  ∀ s : State, s.run ≠ .running → step s = .next s

/-- No state stops the model: every step, from every state, answers a next state. That failures, terminal states and a
waiting `in` are next states is the model's inference (log 10). `Run` repeats the step while `RUN` is Running and is over
in a terminal state, whatever the host still does; with no bound of its own, it either ends or goes on for ever
(`42_sequencer.md` section 3, `47_host_interfaces.md` section 2, `70_reset_and_hazards.md` section 5, decision D28;
log 23). -/
def Obligations.EveryStepAnswersANextState : Prop :=
  (∀ s : State, ∃ t, step s = .next t) ∧
  (∀ (s t : State) (act : HostAct), s.run = .running → step (s.hostAct act) = .next t →
    ∀ acts, s.runThrough (act :: acts) = t.runThrough acts) ∧
  (∀ (s t : State) (acts : List HostAct), s.runThrough acts = .next t → t.run ≠ .running →
    ∀ more, s.runThrough (acts ++ more) = .next t) ∧
  ∀ (s : State) (host : Nat → HostAct),
    (State.RunsForever s host ↔ ∀ t, ¬ State.RunEnds s host t) ∧
    ∀ t u, State.RunEnds s host t → State.RunEnds s host u → t = u

/-- The transitions of `RUN`: Halted is entered by a `halt` alone, and `RUN` is otherwise Running or Failed
(`42_sequencer.md` section 1). -/
def Obligations.HaltedOnlyByHalt : Prop :=
  ∀ s t : State, s.run = .running → step s = .next t → (t.run = .halted ↔ s.fetch = .ok .halt)

/-- Rule R99: an illegal decode fails with IP incremented once and nothing else changed. -/
def Obligations.IllegalDecodeFails : Prop :=
  ∀ (s : State) (w : Word), s.run = .running → s.memRead s.ip = some w → (Fields.ofWord w).illegal = true →
    ∃ t, step s = .next t ∧ State.FailsAt s t .illegalInstruction (s.ip + 1)

/-- A fetch out of range fails with IP unmoved, an Immediate Word out of range with IP incremented once
(`42_sequencer.md` sections 2 and 3, decisions D8 and D18). -/
def Obligations.FetchesOutOfRangeFail : Prop :=
  (∀ s : State, s.run = .running → memWords s.params ≤ s.ip.toNat →
    ∃ t, step s = .next t ∧ State.FailsAt s t .outOfRange s.ip) ∧
  ∀ (s : State) (w : Word), s.run = .running → s.memRead s.ip = some w → (Fields.ofWord w).needImm = true →
    memWords s.params ≤ (s.ip + 1).toNat →
    ∃ t, step s = .next t ∧ State.FailsAt s t .outOfRange (s.ip + 1)

/-- Failures are precise: a step that fails has changed IP, by at most two words, and `RUN`, and, for `in` failing at its
write, consumed one byte; nothing else (`60_exceptions.md` section 3, `42_sequencer.md` section 3). -/
def Obligations.FailuresArePrecise : Prop :=
  ∀ (s t : State) (k : FailKind), s.run = .running → step s = .next t → t.run = .failed k →
    (t.ip = s.ip ∨ t.ip = s.ip + 1 ∨ t.ip = s.ip + 2) ∧
    (∀ r, r ≠ Config.regIp → t.reg r = s.reg r) ∧ t.mem = s.mem ∧
    t.output = s.output ∧ t.inputEnded = s.inputEnded ∧ t.params = s.params ∧ t.bifCalls = s.bifCalls ∧
    (t.input = s.input ∨ (∃ c, s.fetch = .ok (.inp c)) ∧ ∃ byte, s.input = byte :: t.input)

/-- Rule R167: `IllegalOperation` is raised by `div` alone, when the effective value of C is zero; its status is
divide-overflow. -/
def Obligations.IllegalOperationExactlyDivideByZero : Prop :=
  (∀ s t : State, s.run = .running → step s = .next t →
    (t.run = .failed .illegalOperation ↔
      ∃ dst b c x, s.fetch = .ok (.div dst b c) ∧ (s.advance (1 + c.extraWords)).effB b = some x ∧
        (s.advance (1 + c.extraWords)).effC c = some 0)) ∧
  (RunState.failed .illegalOperation).status = some .divideOverflow

/-- `InvalidBif` is raised by `bif` alone, when the id is at or above `BIF_COUNT` (`60_exceptions.md` section 1,
decision D16). -/
def Obligations.InvalidBifExactlyIdOutOfRange : Prop :=
  ∀ s t : State, s.run = .running → step s = .next t →
    (t.run = .failed .invalidBif ↔
      ∃ c v, s.fetch = .ok (.callBif c) ∧ (s.advance (1 + c.extraWords)).effC c = some v ∧ s.params.bifCount ≤ v.toNat)

/-- Precedence in `div` (`60_exceptions.md` section 2, decision D18): a B dereference out of range is met before the zero
divisor, and the zero divisor before a destination out of range. -/
def Obligations.FirstFailureInPhaseOrder : Prop :=
  ∀ (dst b : Operand) (c : COperand) (s : State),
    ((s.advance (1 + c.extraWords)).effB b = none →
      ∃ t, exec (.div dst b c) s = .next t ∧
        State.FailsAt s t .outOfRange (s.ip + BitVec.ofNat 32 (1 + c.extraWords))) ∧
    ∀ x, (s.advance (1 + c.extraWords)).effB b = some x →
      ((s.advance (1 + c.extraWords)).effC c = none →
        ∃ t, exec (.div dst b c) s = .next t ∧
          State.FailsAt s t .outOfRange (s.ip + BitVec.ofNat 32 (1 + c.extraWords))) ∧
      ((s.advance (1 + c.extraWords)).effC c = some 0 →
        ∃ t, exec (.div dst b c) s = .next t ∧
          State.FailsAt s t .illegalOperation (s.ip + BitVec.ofNat 32 (1 + c.extraWords))) ∧
      ∀ y, (s.advance (1 + c.extraWords)).effC c = some y → y ≠ 0 →
        ((s.advance (1 + c.extraWords)).dst dst).writable s.params = false →
        ∃ t, exec (.div dst b c) s = .next t ∧
          State.FailsAt s t .outOfRange (s.ip + BitVec.ofNat 32 (1 + c.extraWords))

/-- The parameters of an instance are the same after every step (`00_scope.md` section 4). -/
def Obligations.StepKeepsTheParameters : Prop :=
  ∀ s t : State, step s = .next t → t.params = s.params

/-- The streams only move forward: a step appends to `OUT` and consumes a prefix of `IN` (`47_host_interfaces.md`
section 2, `46_io_bif.md` on the contract of a built-in function). The end of `IN` stays as it was: the host alone signals
it, and that a built-in function cannot is the model's choice (log 8). -/
def Obligations.StreamsOnlyMoveForward : Prop :=
  ∀ s t : State, step s = .next t →
    s.output <+: t.output ∧ t.input <:+ s.input ∧ t.inputEnded = s.inputEnded

/-- Rule R107: IP advances by 1 word, or by 2 with an Immediate Word; it changes in no other way except by a taken branch,
a destination write to slot `REG_IP`, or a built-in function; a fetch that fails has advanced it by at most 1; and the
rule's own example. -/
def Obligations.IpAdvancesPastTheInstruction : Prop :=
  (∀ (i : Instr) (s t : State), i.wellFormed = true → exec i s = .next t →
    (∀ c, i = .inp c → s.waiting = false) → (∀ c, i ≠ .callBif c) → destOf i s ≠ some (.reg Config.regIp) →
    t.ip = s.ip + (if (i.slotC.bind COperand.immediateWord).isSome then 2 else 1) ∨
    ∃ c v, (s.fetched i).effC c = some v ∧ t.ip = v ∧
      (i = .br c ∨ (i = .brz c ∧ s.zeroFlag = false) ∨ (i = .brnz c ∧ s.zeroFlag = true))) ∧
  (∀ s t : State, s.fetch = .error t → t.ip = s.ip ∨ t.ip = s.ip + 1) ∧
  ∀ s : State, s.reg 2 = 3 → ∃ t, exec (.add (.direct 1) (.direct 2) (.immediate 5)) s = .next t ∧
    t.reg 1 = 8 ∧ t.ip = s.ip + 2

/-! ### Memory, registers, operands -/

/-- `MemRead` and `MemWrite` (`20_memory.md` section 1, decision D8): below `MEM_WORDS` a read gives the cell and a write
sets it and no other, byte for byte; at or above it both fail. -/
def Obligations.MemoryPortReadsAndWritesOneWord : Prop :=
  ∀ (s : State) (a v : Word),
    (a.toNat < memWords s.params →
      s.memRead a = some (Memory.readWord s.mem a.toNat) ∧
      ∃ t, s.memWrite a v = some t ∧ t.memRead a = some v ∧
        (∀ a', a' ≠ a → t.memRead a' = s.memRead a') ∧
        (∀ k, ¬ (4 * a.toNat ≤ k ∧ k < 4 * a.toNat + 4) → Memory.readByte t.mem k = Memory.readByte s.mem k) ∧
        (∀ r, t.reg r = s.reg r) ∧ t.run = s.run ∧ State.SameOutside s t) ∧
    (memWords s.params ≤ a.toNat → s.memRead a = none ∧ s.memWrite a v = none)

/-- A store is the word the next fetch at its address reads (`20_memory.md` section 4, instruction-fetch coherence). -/
def Obligations.StoresAreSeenByTheNextFetch : Prop :=
  ∀ (s t : State) (a v : Word) (i : Instr), s.memWrite a v = some t → s.ip = a → s.run = .running →
    decodeWords [v] = .ok (i, []) → step t = exec i t

/-- Writing a register slot sets that slot and no other; no slot refuses (`41_operand_resolution.md` section 2,
`10_state.md` section 1). -/
def Obligations.RegisterWriteSetsOneSlot : Prop :=
  ∀ (s : State) (r : Reg) (v : Word),
    (s.setReg r v).reg r = v ∧ (∀ r', r' ≠ r → (s.setReg r v).reg r' = s.reg r') ∧
    (s.setReg r v).mem = s.mem ∧ (s.setReg r v).run = s.run ∧ State.SameOutside s (s.setReg r v)

/-- Rules R82, R83 and R84: effective values in terms of the decoded fields and flags, an address out of range giving none,
and the destinations of the A and B slots. The destination of the C slot is the spec's decision D11: the register, the
cell it names, or the cell the Immediate Word names, and no location for a literal. -/
def Obligations.OperandsResolveByTheirFlags : Prop :=
  ∀ (s : State) (d : Fields) (imm : Word),
    s.effB (operandOf d.regbDeref d.regb)
      = (if d.regbDeref = true then s.memRead (s.reg d.regb) else some (s.reg d.regb)) ∧
    s.effC (cOperandOf d imm)
      = (if d.regcDeref = true then s.memRead (if d.immediate = true then imm else s.reg d.regc)
         else some (if d.immediate = true then imm else s.reg d.regc)) ∧
    s.dst (operandOf d.regaDeref d.rega)
      = (if d.regaDeref = true then .mem (s.reg d.rega) else .reg d.rega) ∧
    s.dst (operandOf d.regbDeref d.regb)
      = (if d.regbDeref = true then .mem (s.reg d.regb) else .reg d.regb) ∧
    s.dstC (cOperandOf d imm)
      = (if d.immediate = true then (if d.regcDeref = true then some (.mem imm) else none)
         else some (if d.regcDeref = true then .mem (s.reg d.regc) else .reg d.regc)) ∧
    ∀ a : Word, memWords s.params ≤ a.toNat → s.memRead a = none

/-! ### `halt` and `move` -/

/-- `halt` completes: `RUN` is Halted, IP is past the word, nothing else changed (`43_halt_move.md`, halt). -/
def Obligations.HaltStopsTheMachine : Prop :=
  ∀ s : State, ∃ t, exec .halt s = .next t ∧ t.run = .halted ∧ t.ip = s.ip + 1 ∧
    (∀ r, r ≠ Config.regIp → t.reg r = s.reg r) ∧ t.mem = s.mem ∧ State.SameOutside s t

/-- `move` completes with the source's effective value in the destination (`43_halt_move.md`, move). -/
def Obligations.MoveCopiesTheSource : Prop :=
  ∀ (dst : Operand) (src : COperand) (s : State) (v : Word),
    (s.advance (1 + src.extraWords)).effC src = some v →
    ((s.advance (1 + src.extraWords)).dst dst).writable s.params = true →
    ∃ t, exec (.move dst src) s = .next t ∧ t.run = s.run ∧
      t.readDest ((s.advance (1 + src.extraWords)).dst dst) = v

/-- `move` fails with nothing written when its source or its destination is out of range (`43_halt_move.md`, move;
decision D8). -/
def Obligations.MoveFailsOutOfRange : Prop :=
  ∀ (dst : Operand) (src : COperand) (s : State),
    ((s.advance (1 + src.extraWords)).effC src = none ∨
      ((s.advance (1 + src.extraWords)).dst dst).writable s.params = false) →
    ∃ t, exec (.move dst src) s = .next t ∧
      State.FailsAt s t .outOfRange (s.ip + BitVec.ofNat 32 (1 + src.extraWords))

/-! ### Arithmetic and logic -/

/-- `add` completes with the sum modulo `2^32` (`44_alu.md` section 2, decision D5). -/
def Obligations.AddWritesTheSum : Prop :=
  ∀ (dst b : Operand) (c : COperand) (s : State) (x y : Word), s.Resolves dst b c x y →
    ∃ t, exec (.add dst b c) s = .next t ∧ t.run = s.run ∧
      (t.readDest ((s.advance (1 + c.extraWords)).dst dst)).toNat = (x.toNat + y.toNat) % 2 ^ 32

/-- `sub` completes with the difference modulo `2^32`, and then sets Z exactly if the difference is zero, on top of what
was written when the destination is FLAGS (`44_alu.md` section 2, decision D5). -/
def Obligations.SubWritesTheDifference : Prop :=
  ∀ (dst b : Operand) (c : COperand) (s : State) (x y : Word), s.Resolves dst b c x y →
    ∃ t, exec (.sub dst b c) s = .next t ∧ t.run = s.run ∧
      ((s.advance (1 + c.extraWords)).dst dst ≠ .reg Config.regFlags →
        (t.readDest ((s.advance (1 + c.extraWords)).dst dst)).toNat = (x.toNat + (2 ^ 32 - y.toNat)) % 2 ^ 32 ∧
        t.flags = if x = y then s.flags ||| 0x00000002 else s.flags) ∧
      ((s.advance (1 + c.extraWords)).dst dst = .reg Config.regFlags →
        t.flags.toNat = if x = y then 2 else (x.toNat + (2 ^ 32 - y.toNat)) % 2 ^ 32)

/-- `mul` completes with the low 32 bits of the product (`44_alu.md` section 2, decision D5). -/
def Obligations.MulWritesTheLowProduct : Prop :=
  ∀ (dst b : Operand) (c : COperand) (s : State) (x y : Word), s.Resolves dst b c x y →
    ∃ t, exec (.mul dst b c) s = .next t ∧ t.run = s.run ∧
      (t.readDest ((s.advance (1 + c.extraWords)).dst dst)).toNat = (x.toNat * y.toNat) % 2 ^ 32

/-- `div` by a divisor that is not zero completes with the floor of the unsigned quotient (`44_alu.md` section 2). -/
def Obligations.DivWritesTheFloorQuotient : Prop :=
  ∀ (dst b : Operand) (c : COperand) (s : State) (x y : Word), s.Resolves dst b c x y → y ≠ 0 →
    ∃ t, exec (.div dst b c) s = .next t ∧ t.run = s.run ∧
      (t.readDest ((s.advance (1 + c.extraWords)).dst dst)).toNat = x.toNat / y.toNat

/-- `shr` completes: by fewer than 32 places zeros enter at the top; from 32 on the result is the free value
`SHIFT_WIDE` (`44_alu.md` sections 2 and 3, decision D6; log 6). -/
def Obligations.ShrShiftsRight : Prop :=
  ∀ (dst b : Operand) (c : COperand) (s : State) (x y : Word), s.Resolves dst b c x y →
    ∃ t, exec (.shr dst b c) s = .next t ∧ t.run = s.run ∧
      t.readDest ((s.advance (1 + c.extraWords)).dst dst)
        = (if y.toNat < 32 then BitVec.ofNat 32 (x.toNat / 2 ^ y.toNat) else Config.shiftWide .shr x y)

/-- `shl` completes: by fewer than 32 places zeros enter at bit 0; from 32 on the result is the free value
`SHIFT_WIDE` (`44_alu.md` sections 2 and 3, decision D6; log 6). -/
def Obligations.ShlShiftsLeft : Prop :=
  ∀ (dst b : Operand) (c : COperand) (s : State) (x y : Word), s.Resolves dst b c x y →
    ∃ t, exec (.shl dst b c) s = .next t ∧ t.run = s.run ∧
      t.readDest ((s.advance (1 + c.extraWords)).dst dst)
        = (if y.toNat < 32 then BitVec.ofNat 32 (x.toNat * 2 ^ y.toNat) else Config.shiftWide .shl x y)

/-- `nand` and `xor` complete with the bitwise results (`44_alu.md` section 2, decision D7). -/
def Obligations.NandAndXorAreBitwise : Prop :=
  ∀ (dst b : Operand) (c : COperand) (s : State) (x y : Word), s.Resolves dst b c x y →
    (∃ t, exec (.nand dst b c) s = .next t ∧ t.run = s.run ∧
      ∀ n, n < 32 → (t.readDest ((s.advance (1 + c.extraWords)).dst dst)).getLsbD n = !(x.getLsbD n && y.getLsbD n)) ∧
    (∃ t, exec (.xor dst b c) s = .next t ∧ t.run = s.run ∧
      ∀ n, n < 32 → (t.readDest ((s.advance (1 + c.extraWords)).dst dst)).getLsbD n = (x.getLsbD n != y.getLsbD n))

/-- The instructions of the common shape fail with nothing written when a source or the destination is out of range
(`44_alu.md` section 1, decision D8). The zero divisor of `div` comes before the destination (see
`FirstFailureInPhaseOrder`), so `div` is left out here. -/
def Obligations.ArithmeticFailsOutOfRange : Prop :=
  ∀ (dst b : Operand) (c : COperand) (s : State) (i : Instr),
    i ∈ [Instr.add dst b c, .sub dst b c, .mul dst b c, .shr dst b c, .shl dst b c, .nand dst b c, .xor dst b c] →
    ((s.advance (1 + c.extraWords)).effB b = none ∨ (s.advance (1 + c.extraWords)).effC c = none ∨
      ((s.advance (1 + c.extraWords)).dst dst).writable s.params = false) →
    ∃ t, exec i s = .next t ∧ State.FailsAt s t .outOfRange (s.ip + BitVec.ofNat 32 (1 + c.extraWords))

/-- Rule R104: the flag update. A `sub` with a zero result sets bit 1 of FLAGS as the write left it, one with another
result does not touch FLAGS after its write, and no other opcode touches FLAGS but as its destination or by the
built-in function it calls. -/
def Obligations.OnlySubUpdatesTheFlag : Prop :=
  (∀ (dst b : Operand) (c : COperand) (s u t : State) (x y : Word),
    (s.advance (1 + c.extraWords)).effB b = some x → (s.advance (1 + c.extraWords)).effC c = some y →
    (s.advance (1 + c.extraWords)).writeDst ((s.advance (1 + c.extraWords)).dst dst) (x - y) = some u →
    exec (.sub dst b c) s = .next t →
    t.flags = (if x - y = 0 then u.flags ||| 0x00000002 else u.flags) ∧
    (∀ r, r ≠ Config.regFlags → t.reg r = u.reg r) ∧ t.mem = u.mem) ∧
  ∀ (i : Instr) (s t : State), i.mnemonic ≠ .sub → i.mnemonic ≠ .callBif → exec i s = .next t →
    destOf i s ≠ some (.reg Config.regFlags) → t.flags = s.flags

/-- The zero flag is sticky: a step that does not write FLAGS as its destination and calls no built-in function leaves a
set Z set, and Z becomes set only by a `sub` (`10_state.md` section 4). -/
def Obligations.ZeroFlagIsSticky : Prop :=
  ∀ (s t : State), s.run = .running → step s = .next t →
    (∀ i, s.fetch = .ok i → i.mnemonic ≠ .callBif ∧ destOf i s ≠ some (.reg Config.regFlags)) →
    (s.zeroFlag = true → t.zeroFlag = true) ∧
    (s.zeroFlag = false → t.zeroFlag = true → ∃ dst b c, s.fetch = .ok (.sub dst b c))

/-! ### Branches -/

/-- `br` completes with IP at the effective value and nothing else changed; the target is not checked
(`45_branch.md`, br). -/
def Obligations.BrJumpsToTheTarget : Prop :=
  ∀ (target : COperand) (s : State) (v : Word), (s.advance (1 + target.extraWords)).effC target = some v →
    ∃ t, exec (.br target) s = .next t ∧ State.OnlyIp s t v

/-- `brz` completes: IP at the target if Z is clear, else behind the instruction (`45_branch.md`, brz; conflict C2). -/
def Obligations.BrzBranchesOnZClear : Prop :=
  ∀ (target : COperand) (s : State) (v : Word), (s.advance (1 + target.extraWords)).effC target = some v →
    ∃ t, exec (.brz target) s = .next t ∧
      State.OnlyIp s t (if (s.reg 14).getLsbD 1 = false then v else s.ip + BitVec.ofNat 32 (1 + target.extraWords))

/-- `brnz` completes: IP at the target if Z is set, else behind the instruction (`45_branch.md`, brnz; conflict C2). -/
def Obligations.BrnzBranchesOnZSet : Prop :=
  ∀ (target : COperand) (s : State) (v : Word), (s.advance (1 + target.extraWords)).effC target = some v →
    ∃ t, exec (.brnz target) s = .next t ∧
      State.OnlyIp s t (if (s.reg 14).getLsbD 1 = true then v else s.ip + BitVec.ofNat 32 (1 + target.extraWords))

/-- A branch whose target's dereference is out of range fails, whether or not it would be taken (`45_branch.md`;
`42_sequencer.md` section 2, decision D10). -/
def Obligations.BranchesResolveTheirTargetFirst : Prop :=
  ∀ (target : COperand) (s : State) (i : Instr), i ∈ [Instr.br target, .brz target, .brnz target] →
    (s.advance (1 + target.extraWords)).effC target = none →
    ∃ t, exec i s = .next t ∧ State.FailsAt s t .outOfRange (s.ip + BitVec.ofNat 32 (1 + target.extraWords))

/-! ### Input, output, built-in functions -/

/-- `in` completes: the destination is the next byte zero-extended and the byte is consumed, or `IN_EOF` at the end of the
stream, which every later `in` stores again, whatever the host still does (`46_io_bif.md`, in; `47_host_interfaces.md`
section 2, decision D13; that bytes supplied after the end do nothing is log 22). -/
def Obligations.InStoresTheNextByte : Prop :=
  ∀ (c : COperand) (d : Dest) (s : State), (s.advance (1 + c.extraWords)).dstC c = some d →
    d.writable s.params = true →
    (∀ byte rest, s.input = byte :: rest →
      ∃ t, exec (.inp c) s = .next t ∧ t.run = s.run ∧ (t.readDest d).toNat = byte.toNat ∧ t.input = rest) ∧
    (s.input = [] → s.inputEnded = true →
      ∃ t, exec (.inp c) s = .next t ∧ t.run = s.run ∧ t.readDest d = s.params.inEof ∧ t.input = [] ∧
        t.inputEnded = true ∧ ∀ act : HostAct, t.hostAct act = t)

/-- Where `in` does not complete: it waits with the state unchanged while no byte is there and the end is not signalled;
it fails at a destination out of range, the byte consumed, or nothing consumed at the end of the stream; a literal
destination is illegal and consumes nothing
(`42_sequencer.md` section 3, `46_io_bif.md`, in; decisions D11, D13, D18). -/
def Obligations.InWaitsOrFails : Prop :=
  (∀ (c : COperand) (s : State), c.isLocation = true → s.input = [] → s.inputEnded = false →
    exec (.inp c) s = .next s) ∧
  (∀ (c : COperand) (d : Dest) (s : State) (byte : Byte) (rest : List Byte),
    (s.advance (1 + c.extraWords)).dstC c = some d → d.writable s.params = false → s.input = byte :: rest →
    ∃ t, exec (.inp c) s = .next t ∧
      State.FailsAt { s with input := rest } t .outOfRange (s.ip + BitVec.ofNat 32 (1 + c.extraWords))) ∧
  (∀ (c : COperand) (d : Dest) (s : State),
    (s.advance (1 + c.extraWords)).dstC c = some d → d.writable s.params = false → s.input = [] → s.inputEnded = true →
    ∃ t, exec (.inp c) s = .next t ∧
      State.FailsAt s t .outOfRange (s.ip + BitVec.ofNat 32 (1 + c.extraWords))) ∧
  (∀ (v : Word) (s : State), ∃ t, exec (.inp (.immediate v)) s = .next t ∧
    State.FailsAt s t .illegalInstruction (s.ip + 1))

/-- A waiting `in` completes once the host has supplied a byte, or signalled the end (`47_host_interfaces.md` section 2,
decision D13); under a host that does neither, `Run` goes on for ever (`42_sequencer.md` section 3; the waiting step is a
next state, log 10). -/
def Obligations.HostLiftsTheHoldOfIn : Prop :=
  (∀ (c : COperand) (s : State), s.run = .running → s.fetch = .ok (.inp c) → s.waiting = true →
    State.RunsForever s fun _ => .nothing) ∧
  ∀ (c : COperand) (d : Dest) (s : State), (s.advance (1 + c.extraWords)).dstC c = some d →
    d.writable s.params = true → s.waiting = true →
    (∀ byte, ∃ t, exec (.inp c) (s.supplyInput [byte]) = .next t ∧ (t.readDest d).toNat = byte.toNat ∧ t.input = []) ∧
    ∃ t, exec (.inp c) s.endInput = .next t ∧ t.readDest d = s.params.inEof

/-- `out` completes: the low eight bits of the value are appended to `OUT`, and of the rest only IP moves; an operand out of
range writes no byte (`46_io_bif.md`, out; decision D14). -/
def Obligations.OutAppendsTheLowByte : Prop :=
  ∀ (src : COperand) (s : State),
    (∀ v, (s.advance (1 + src.extraWords)).effC src = some v →
      ∃ t byte, exec (.out src) s = .next t ∧ byte.toNat = v.toNat % 256 ∧ t.output = s.output ++ [byte] ∧
        State.OnlyIp { s with output := t.output } t (s.ip + BitVec.ofNat 32 (1 + src.extraWords))) ∧
    ((s.advance (1 + src.extraWords)).effC src = none →
      ∃ t, exec (.out src) s = .next t ∧
        State.FailsAt s t .outOfRange (s.ip + BitVec.ofNat 32 (1 + src.extraWords)))

/-- `bif` of the id of `hello` completes: the greeting is appended to `OUT`, and of the rest only IP moves
(`46_io_bif.md`, decision D27). -/
def Obligations.HelloWritesItsGreeting : Prop :=
  ∀ (c : COperand) (s : State), (s.advance (1 + c.extraWords)).effC c = some 0 → 1 ≤ s.params.bifCount →
    ∃ t, exec (.callBif c) s = .next t ∧ t.output = s.output ++ s.params.helloText ∧
      State.OnlyIp { s with output := t.output } t (s.ip + BitVec.ofNat 32 (1 + c.extraWords))

/-- `bif` of any id below `BIF_COUNT` completes whatever its handler does within the contract: `RUN` and the parameters
stand, `OUT` is extended, a prefix of `IN` consumed, and no cell at or above `MEM_WORDS` touched. For an id other than
`hello`'s the handler is handed the registers after the fetches, memory, the configuration and the streams, and its answer
is what the step leaves: its registers, the last word it stored at each address, the bytes it consumed and emitted; the
word it returns changes nothing (`46_io_bif.md` on `bif` and on the contract of a built-in function, decision D15; the form
of the answer is log 8). -/
def Obligations.HandlersKeepTheirContract : Prop :=
  ∀ (c : COperand) (s : State) (v : Word), (s.advance (1 + c.extraWords)).effC c = some v →
    v.toNat < s.params.bifCount →
    ∃ t, exec (.callBif c) s = .next t ∧ t.run = s.run ∧ t.params = s.params ∧ t.inputEnded = s.inputEnded ∧
      s.output <+: t.output ∧ t.input <:+ s.input ∧
      (∀ k, memWords s.params ≤ k / 4 → Memory.readByte t.mem k = Memory.readByte s.mem k) ∧
      (v ≠ 0 → ∀ e : HandlerEffect,
        e = Config.bifHandler v.toNat s.bifCalls
          { regs := (s.advance (1 + c.extraWords)).regs, mem := s.mem, config := s.params,
            input := s.input, inputEnded := s.inputEnded, output := s.output } →
        t.regs = e.regs ∧
        (∀ a, a < memWords s.params → Memory.readWord t.mem a
          = ((e.writes.reverse.find? fun w => w.1.toNat = a).map Prod.snd).getD (Memory.readWord s.mem a)) ∧
        t.input = s.input.drop e.consumed ∧ t.output = s.output ++ e.emitted ∧
        ∀ word, (s.advance (1 + c.extraWords)).applyEffect { e with word := word } = t)

/-- `bif` of an id at or above `BIF_COUNT` fails and runs no handler (`46_io_bif.md`, decision D16, conflict C4). -/
def Obligations.BifFailsAboveTheTable : Prop :=
  ∀ (c : COperand) (s : State),
    (∀ v, (s.advance (1 + c.extraWords)).effC c = some v → s.params.bifCount ≤ v.toNat →
      ∃ t, exec (.callBif c) s = .next t ∧
        State.FailsAt s t .invalidBif (s.ip + BitVec.ofNat 32 (1 + c.extraWords))) ∧
    ((s.advance (1 + c.extraWords)).effC c = none →
      ∃ t, exec (.callBif c) s = .next t ∧
        State.FailsAt s t .outOfRange (s.ip + BitVec.ofNat 32 (1 + c.extraWords)))

/-! ### Frames -/

/-- The frame of `move` and of every arithmetic and logic instruction but `sub`: of the registers only the destination and
IP may change (so FLAGS only as a destination), of memory only the four bytes of the destination word, and the streams
and parameters stand. -/
def Obligations.FrameOfMoveAndArithmetic : Prop :=
  ∀ (i : Instr) (s t : State),
    i.mnemonic ∈ [Mnemonic.move, .add, .mul, .div, .shr, .shl, .nand, .xor] → exec i s = .next t →
    (∀ r, r ≠ Config.regIp → destOf i s ≠ some (.reg r) → t.reg r = s.reg r) ∧
    (∀ k, (∀ d, destOf i s = some d → d.covers k = false) → Memory.readByte t.mem k = Memory.readByte s.mem k) ∧
    State.SameOutside s t

/-- The frame of `sub`: as for the other arithmetic instructions, and bit 1 of FLAGS may change besides; the other 31 bits
of FLAGS change only as a destination. -/
def Obligations.FrameOfSub : Prop :=
  ∀ (dst b : Operand) (c : COperand) (s t : State), exec (.sub dst b c) s = .next t →
    (∀ r, r ≠ Config.regIp → r ≠ Config.regFlags → destOf (.sub dst b c) s ≠ some (.reg r) → t.reg r = s.reg r) ∧
    (destOf (.sub dst b c) s ≠ some (.reg Config.regFlags) →
      ∀ n, n ≠ 1 → t.flags.getLsbD n = s.flags.getLsbD n) ∧
    (∀ k, (∀ d, destOf (.sub dst b c) s = some d → d.covers k = false) →
      Memory.readByte t.mem k = Memory.readByte s.mem k) ∧
    State.SameOutside s t

/-- The frame of `halt`, the branches and `out`: no register but IP changes, no byte of memory, no input; `OUT` only by
`out`. -/
def Obligations.FrameOfHaltBranchesAndOut : Prop :=
  ∀ (i : Instr) (s t : State), i.mnemonic ∈ [Mnemonic.halt, .br, .brz, .brnz, .out] → exec i s = .next t →
    (∀ r, r ≠ Config.regIp → t.reg r = s.reg r) ∧ (∀ k, Memory.readByte t.mem k = Memory.readByte s.mem k) ∧
    t.input = s.input ∧ t.inputEnded = s.inputEnded ∧ (i.mnemonic ≠ .out → t.output = s.output) ∧
    t.params = s.params ∧ t.bifCalls = s.bifCalls

/-- The frame of `in`: of the registers only the destination and IP may change, of memory only the four bytes of the
destination word, and of the streams only `IN`, which may lose its first byte. -/
def Obligations.FrameOfIn : Prop :=
  ∀ (c : COperand) (s t : State), exec (.inp c) s = .next t →
    (∀ r, r ≠ Config.regIp → destOf (.inp c) s ≠ some (.reg r) → t.reg r = s.reg r) ∧
    (∀ k, (∀ d, destOf (.inp c) s = some d → d.covers k = false) → Memory.readByte t.mem k = Memory.readByte s.mem k) ∧
    (t.input = s.input ∨ ∃ byte, s.input = byte :: t.input) ∧
    t.inputEnded = s.inputEnded ∧ t.output = s.output ∧ t.params = s.params ∧ t.bifCalls = s.bifCalls

/-! ### The host's side -/

/-- Each terminal state has its status and Running has none; the four codes are distinct (`47_host_interfaces.md`
section 2, decision D19). -/
def Obligations.StatusesOfTerminalStates : Prop :=
  (∀ r : RunState, r.status.isSome = r.terminal) ∧
  RunState.halted.status = some .success ∧
  (RunState.failed .illegalInstruction).status = some .illegalInstruction ∧
  (RunState.failed .illegalOperation).status = some .divideOverflow ∧
  (RunState.failed .invalidBif).status = some .failure ∧ (RunState.failed .outOfRange).status = some .failure ∧
  ∀ a b : Status, statusCode a = statusCode b → a = b
end

