-- ==== Sys2Proof/Laws/State.lean ====
section
/-! SUPPORT. One lemma per field per update of the state, and the register-file laws. -/

namespace Sys2Proof.Machine

/-! ### `setReg` -/

@[simp] theorem State.setReg_mem (s : State) (r : Reg) (v : Word) : (s.setReg r v).mem = s.mem := rfl
@[simp] theorem State.setReg_run (s : State) (r : Reg) (v : Word) : (s.setReg r v).run = s.run := rfl
@[simp] theorem State.setReg_input (s : State) (r : Reg) (v : Word) : (s.setReg r v).input = s.input := rfl
@[simp] theorem State.setReg_inputEnded (s : State) (r : Reg) (v : Word) : (s.setReg r v).inputEnded = s.inputEnded := rfl
@[simp] theorem State.setReg_output (s : State) (r : Reg) (v : Word) : (s.setReg r v).output = s.output := rfl
@[simp] theorem State.setReg_params (s : State) (r : Reg) (v : Word) : (s.setReg r v).params = s.params := rfl
@[simp] theorem State.setReg_bifCalls (s : State) (r : Reg) (v : Word) : (s.setReg r v).bifCalls = s.bifCalls := rfl

/-! ### `setIp` -/

@[simp] theorem State.setIp_mem (s : State) (v : Word) : (s.setIp v).mem = s.mem := rfl
@[simp] theorem State.setIp_run (s : State) (v : Word) : (s.setIp v).run = s.run := rfl
@[simp] theorem State.setIp_input (s : State) (v : Word) : (s.setIp v).input = s.input := rfl
@[simp] theorem State.setIp_inputEnded (s : State) (v : Word) : (s.setIp v).inputEnded = s.inputEnded := rfl
@[simp] theorem State.setIp_output (s : State) (v : Word) : (s.setIp v).output = s.output := rfl
@[simp] theorem State.setIp_params (s : State) (v : Word) : (s.setIp v).params = s.params := rfl
@[simp] theorem State.setIp_bifCalls (s : State) (v : Word) : (s.setIp v).bifCalls = s.bifCalls := rfl

/-! ### `advance` -/

@[simp] theorem State.advance_mem (s : State) (n : Nat) : (s.advance n).mem = s.mem := rfl
@[simp] theorem State.advance_run (s : State) (n : Nat) : (s.advance n).run = s.run := rfl
@[simp] theorem State.advance_input (s : State) (n : Nat) : (s.advance n).input = s.input := rfl
@[simp] theorem State.advance_inputEnded (s : State) (n : Nat) : (s.advance n).inputEnded = s.inputEnded := rfl
@[simp] theorem State.advance_output (s : State) (n : Nat) : (s.advance n).output = s.output := rfl
@[simp] theorem State.advance_params (s : State) (n : Nat) : (s.advance n).params = s.params := rfl
@[simp] theorem State.advance_bifCalls (s : State) (n : Nat) : (s.advance n).bifCalls = s.bifCalls := rfl

/-! ### `setZero` -/

@[simp] theorem State.setZero_mem (s : State) : (s.setZero).mem = s.mem := rfl
@[simp] theorem State.setZero_run (s : State) : (s.setZero).run = s.run := rfl
@[simp] theorem State.setZero_input (s : State) : (s.setZero).input = s.input := rfl
@[simp] theorem State.setZero_inputEnded (s : State) : (s.setZero).inputEnded = s.inputEnded := rfl
@[simp] theorem State.setZero_output (s : State) : (s.setZero).output = s.output := rfl
@[simp] theorem State.setZero_params (s : State) : (s.setZero).params = s.params := rfl
@[simp] theorem State.setZero_bifCalls (s : State) : (s.setZero).bifCalls = s.bifCalls := rfl

/-! ### `fail` -/

@[simp] theorem State.fail_regs (s : State) (k : FailKind) : (s.fail k).regs = s.regs := rfl
@[simp] theorem State.fail_mem (s : State) (k : FailKind) : (s.fail k).mem = s.mem := rfl
@[simp] theorem State.fail_run (s : State) (k : FailKind) : (s.fail k).run = .failed k := rfl
@[simp] theorem State.fail_input (s : State) (k : FailKind) : (s.fail k).input = s.input := rfl
@[simp] theorem State.fail_inputEnded (s : State) (k : FailKind) : (s.fail k).inputEnded = s.inputEnded := rfl
@[simp] theorem State.fail_output (s : State) (k : FailKind) : (s.fail k).output = s.output := rfl
@[simp] theorem State.fail_params (s : State) (k : FailKind) : (s.fail k).params = s.params := rfl
@[simp] theorem State.fail_bifCalls (s : State) (k : FailKind) : (s.fail k).bifCalls = s.bifCalls := rfl

/-! ### `halt` -/

@[simp] theorem State.halt_regs (s : State) : (s.halt).regs = s.regs := rfl
@[simp] theorem State.halt_mem (s : State) : (s.halt).mem = s.mem := rfl
@[simp] theorem State.halt_run (s : State) : (s.halt).run = .halted := rfl
@[simp] theorem State.halt_input (s : State) : (s.halt).input = s.input := rfl
@[simp] theorem State.halt_inputEnded (s : State) : (s.halt).inputEnded = s.inputEnded := rfl
@[simp] theorem State.halt_output (s : State) : (s.halt).output = s.output := rfl
@[simp] theorem State.halt_params (s : State) : (s.halt).params = s.params := rfl
@[simp] theorem State.halt_bifCalls (s : State) : (s.halt).bifCalls = s.bifCalls := rfl

/-! ### `outByte` -/

@[simp] theorem State.outByte_regs (s : State) (k : Byte) : (s.outByte k).regs = s.regs := rfl
@[simp] theorem State.outByte_mem (s : State) (k : Byte) : (s.outByte k).mem = s.mem := rfl
@[simp] theorem State.outByte_run (s : State) (k : Byte) : (s.outByte k).run = s.run := rfl
@[simp] theorem State.outByte_input (s : State) (k : Byte) : (s.outByte k).input = s.input := rfl
@[simp] theorem State.outByte_inputEnded (s : State) (k : Byte) : (s.outByte k).inputEnded = s.inputEnded := rfl
@[simp] theorem State.outByte_output (s : State) (k : Byte) : (s.outByte k).output = s.output ++ [k] := rfl
@[simp] theorem State.outByte_params (s : State) (k : Byte) : (s.outByte k).params = s.params := rfl
@[simp] theorem State.outByte_bifCalls (s : State) (k : Byte) : (s.outByte k).bifCalls = s.bifCalls := rfl

/-! ### `applyEffect` -/

@[simp] theorem State.applyEffect_regs (s : State) (e : HandlerEffect) : (s.applyEffect e).regs = e.regs := rfl
@[simp] theorem State.applyEffect_mem (s : State) (e : HandlerEffect) : (s.applyEffect e).mem = storeAll e.writes s.params s.mem := rfl
@[simp] theorem State.applyEffect_run (s : State) (e : HandlerEffect) : (s.applyEffect e).run = s.run := rfl
@[simp] theorem State.applyEffect_input (s : State) (e : HandlerEffect) : (s.applyEffect e).input = s.input.drop e.consumed := rfl
@[simp] theorem State.applyEffect_inputEnded (s : State) (e : HandlerEffect) : (s.applyEffect e).inputEnded = s.inputEnded := rfl
@[simp] theorem State.applyEffect_output (s : State) (e : HandlerEffect) : (s.applyEffect e).output = s.output ++ e.emitted := rfl
@[simp] theorem State.applyEffect_params (s : State) (e : HandlerEffect) : (s.applyEffect e).params = s.params := rfl
@[simp] theorem State.applyEffect_bifCalls (s : State) (e : HandlerEffect) : (s.applyEffect e).bifCalls = s.bifCalls + 1 := rfl

/-! ### The register file -/

theorem State.reg_setReg (s : State) (r r' : Reg) (v : Word) :
    (s.setReg r v).reg r' = if r = r' then v else s.reg r' := by
  simp only [State.reg, State.setReg, Vector.getElem_set, BitVec.toNat_inj]

@[simp] theorem State.reg_setReg_same (s : State) (r : Reg) (v : Word) : (s.setReg r v).reg r = v := by
  simp [State.reg_setReg]

theorem State.reg_setReg_other (s : State) {r r' : Reg} (v : Word) (h : r ≠ r') :
    (s.setReg r v).reg r' = s.reg r' := by
  simp [State.reg_setReg, h]

theorem State.reg_setIp_other (s : State) {r : Reg} (v : Word) (h : r ≠ Config.regIp) :
    (s.setIp v).reg r = s.reg r := s.reg_setReg_other v h.symm

@[simp] theorem State.ip_setIp (s : State) (v : Word) : (s.setIp v).ip = v := s.reg_setReg_same Config.regIp v

theorem State.ip_setReg_other (s : State) {r : Reg} (v : Word) (h : r ≠ Config.regIp) :
    (s.setReg r v).ip = s.ip := s.reg_setReg_other v h

@[simp] theorem State.ip_advance (s : State) (n : Nat) : (s.advance n).ip = s.ip + BitVec.ofNat 32 n := s.ip_setIp _

theorem State.reg_advance_other (s : State) {r : Reg} (n : Nat) (h : r ≠ Config.regIp) :
    (s.advance n).reg r = s.reg r := s.reg_setIp_other _ h

@[simp] theorem State.reg_fail (s : State) (k : FailKind) (r : Reg) : (s.fail k).reg r = s.reg r := rfl
@[simp] theorem State.reg_halt (s : State) (r : Reg) : s.halt.reg r = s.reg r := rfl
@[simp] theorem State.reg_outByte (s : State) (k : Byte) (r : Reg) : (s.outByte k).reg r = s.reg r := rfl

theorem State.reg_setZero_other (s : State) {r : Reg} (h : r ≠ Config.regFlags) :
    s.setZero.reg r = s.reg r := s.reg_setReg_other _ h.symm

theorem State.flags_setZero (s : State) : s.setZero.flags = s.flags ||| Config.flagZ :=
  s.reg_setReg_same Config.regFlags _

/-- Two states are equal when their register slots and their other fields are. -/
theorem State.ext_reg {s t : State} (hreg : ∀ r, s.reg r = t.reg r) (hmem : s.mem = t.mem) (hrun : s.run = t.run)
    (hin : s.input = t.input) (hend : s.inputEnded = t.inputEnded) (hout : s.output = t.output)
    (hp : s.params = t.params) (hb : s.bifCalls = t.bifCalls) : s = t := by
  have hregs : s.regs = t.regs := by
    apply Vector.ext
    intro k hk
    have := hreg (BitVec.ofNat 4 k)
    have hk' : (BitVec.ofNat 4 k).toNat = k := by simp [BitVec.toNat_ofNat]; omega
    simpa only [State.reg, hk'] using this
  cases s; cases t; simp_all

/-! ### Address legality -/

theorem legalAddr_iff (p : Params) (a : Nat) : legalAddr p a = true ↔ a < memWords p := by
  simp only [legalAddr, memWords, Bool.or_eq_true, decide_eq_true_eq]
  omega

theorem legalAddr_eq (p : Params) (a : Nat) : legalAddr p a = decide (a < memWords p) := by
  rw [Bool.eq_iff_iff, legalAddr_iff, decide_eq_true_eq]

end Sys2Proof.Machine
end

