-- ==== Sys2Proof/Laws/Memory.lean ====
section
/-! SUPPORT. Memory as bytes and as words: read after write, and the canonical form. -/

namespace Sys2Proof.Machine

/-! ### Bytes -/

theorem Memory.readByte_filter_ne (m : Memory) (k k' : Nat) :
    Memory.readByte (m.filter fun cell => cell.1 != k) k' = if k = k' then unlistedByte else Memory.readByte m k' := by
  induction m with
  | nil => simp [Memory.readByte]
  | cons cell m ih =>
    obtain ⟨k0, v0⟩ := cell
    by_cases h0 : k0 = k
    · subst h0
      by_cases hk : k0 = k' <;> simp_all [Memory.readByte]
    · by_cases hk : k0 = k'
      · subst hk
        simp [h0, Memory.readByte, Ne.symm h0]
      · simp [h0, hk, Memory.readByte, ih]

theorem Memory.readByte_insertByte (m : Memory) (k k' : Nat) (v : Byte) (h : ∀ cell ∈ m, cell.1 ≠ k) :
    Memory.readByte (Memory.insertByte m k v) k' = if k = k' then v else Memory.readByte m k' := by
  induction m with
  | nil => simp [Memory.insertByte, Memory.readByte]
  | cons cell m ih =>
    obtain ⟨k0, v0⟩ := cell
    have h0 : k0 ≠ k := h (k0, v0) (by simp)
    have hm : ∀ cell ∈ m, cell.1 ≠ k := fun c hc => h c (by simp [hc])
    unfold Memory.insertByte
    split
    · simp [Memory.readByte]
    · rw [Memory.readByte, ih hm, Memory.readByte]
      by_cases hk : k0 = k' <;> grind

theorem Memory.readByte_writeByte (m : Memory) (k k' : Nat) (v : Byte) :
    Memory.readByte (Memory.writeByte m k v) k' = if k = k' then v else Memory.readByte m k' := by
  unfold Memory.writeByte
  split
  · rename_i hv
    rw [Memory.readByte_filter_ne, hv]
  · rw [Memory.readByte_insertByte _ _ _ _ (by simp), Memory.readByte_filter_ne]
    split <;> rfl

/-! ### Words -/

theorem wordOfBytes_byteOfWord (v : Word) :
    wordOfBytes (byteOfWord v 0) (byteOfWord v 1) (byteOfWord v 2) (byteOfWord v 3) = v := by
  apply BitVec.eq_of_getLsbD_eq
  intro i hi
  simp only [wordOfBytes, byteOfWord, BitVec.getLsbD_append, BitVec.getLsbD_extractLsb']
  grind

theorem Memory.readByte_writeWord (m : Memory) (a k : Nat) (v : Word) :
    Memory.readByte (Memory.writeWord m a v) k
      = if 4 * a ≤ k ∧ k < 4 * a + 4 then byteOfWord v (k - 4 * a) else Memory.readByte m k := by
  simp only [Memory.writeWord, Memory.readByte_writeByte]
  by_cases h : 4 * a ≤ k ∧ k < 4 * a + 4
  · obtain ⟨j, hj, rfl⟩ : ∃ j, j < 4 ∧ k = 4 * a + j := ⟨k - 4 * a, by omega, by omega⟩
    interval_cases j <;> simp
  · grind

theorem Memory.readWord_writeWord (m : Memory) (a a' : Nat) (v : Word) :
    Memory.readWord (Memory.writeWord m a v) a' = if a = a' then v else Memory.readWord m a' := by
  unfold Memory.readWord
  simp only [Memory.readByte_writeWord]
  by_cases h : a = a'
  · subst h
    have h1 : 4 * a + 1 - 4 * a = 1 := by omega
    have h2 : 4 * a + 2 - 4 * a = 2 := by omega
    have h3 : 4 * a + 3 - 4 * a = 3 := by omega
    simp [h1, h2, h3, wordOfBytes_byteOfWord]
  · rw [if_neg h, if_neg (by omega), if_neg (by omega), if_neg (by omega), if_neg (by omega)]

/-- Words written from `b` upward are read back there, and nothing else changes. -/
theorem Memory.readWord_writeWords (m : Memory) (b a : Nat) (ws : List Word) :
    Memory.readWord (Memory.writeWords m b ws) a
      = if b ≤ a ∧ a < b + ws.length then ws.getD (a - b) 0 else Memory.readWord m a := by
  induction ws generalizing m b with
  | nil => rw [if_neg (by simp)]; rfl
  | cons w ws ih =>
    rw [Memory.writeWords, ih, Memory.readWord_writeWord]
    by_cases h : b = a
    · subst h
      simp
    · by_cases h2 : b + 1 ≤ a ∧ a < b + 1 + ws.length
      · rw [if_pos h2, if_pos (by simp; omega), show a - b = (a - (b + 1)) + 1 by omega]
        rfl
      · rw [if_neg h2, if_neg h, if_neg (by simp; omega)]

/-- A word depends on its own four bytes only. -/
theorem Memory.readWord_congr {m m' : Memory} {a : Nat}
    (h : ∀ k, 4 * a ≤ k → k < 4 * a + 4 → Memory.readByte m k = Memory.readByte m' k) :
    Memory.readWord m a = Memory.readWord m' a := by
  simp only [Memory.readWord, h (4 * a) (by omega) (by omega), h (4 * a + 1) (by omega) (by omega),
    h (4 * a + 2) (by omega) (by omega), h (4 * a + 3) (by omega) (by omega)]

/-! ### The canonical form -/

/-- The canonical form as two facts: offsets strictly rise, and no listed byte reads as unlisted. -/
theorem Memory.wf_iff (m : Memory) :
    Memory.wf m = true ↔ m.Pairwise (fun c d => c.1 < d.1) ∧ ∀ c ∈ m, c.2 ≠ unlistedByte := by
  induction m with
  | nil => simp [Memory.wf]
  | cons cell m ih =>
    obtain ⟨k, v⟩ := cell
    cases m with
    | nil => simp [Memory.wf]
    | cons cell' m =>
      obtain ⟨k', v'⟩ := cell'
      simp only [Memory.wf, Bool.and_eq_true, decide_eq_true_eq, ih]
      constructor
      · rintro ⟨⟨hv, hk⟩, hp, hu⟩
        refine ⟨List.pairwise_cons.mpr ⟨?_, hp⟩, ?_⟩
        · intro c hc
          rcases List.mem_cons.mp hc with rfl | hc
          · exact hk
          · exact Nat.lt_trans hk ((List.pairwise_cons.mp hp).1 c hc)
        · intro c hc
          rcases List.mem_cons.mp hc with rfl | hc
          · exact hv
          · exact hu c hc
      · rintro ⟨hp, hu⟩
        have hc := List.pairwise_cons.mp hp
        exact ⟨⟨hu (k, v) (by simp), hc.1 (k', v') (by simp)⟩, hc.2, fun c h => hu c (by simp [h])⟩

theorem Memory.mem_insertByte (m : Memory) (k : Nat) (v : Byte) (c : Host.Cell) :
    c ∈ Memory.insertByte m k v ↔ c = (k, v) ∨ c ∈ m := by
  induction m with
  | nil => simp [Memory.insertByte]
  | cons cell m ih =>
    obtain ⟨k0, v0⟩ := cell
    unfold Memory.insertByte
    split
    · simp
    · simp only [List.mem_cons, ih]
      tauto

theorem Memory.pairwise_insertByte (m : Memory) (k : Nat) (v : Byte)
    (hp : m.Pairwise (fun c d => c.1 < d.1)) (hk : ∀ c ∈ m, c.1 ≠ k) :
    (Memory.insertByte m k v).Pairwise (fun c d => c.1 < d.1) := by
  induction m with
  | nil => simp [Memory.insertByte]
  | cons cell m ih =>
    obtain ⟨k0, v0⟩ := cell
    obtain ⟨h0, hm⟩ := List.pairwise_cons.mp hp
    have hne : k0 ≠ k := hk (k0, v0) (by simp)
    unfold Memory.insertByte
    split
    · rename_i hlt
      refine List.pairwise_cons.mpr ⟨?_, hp⟩
      intro c hc
      rcases List.mem_cons.mp hc with rfl | hc
      · exact hlt
      · exact Nat.lt_trans hlt (h0 c hc)
    · refine List.pairwise_cons.mpr ⟨?_, ih hm fun c hc => hk c (by simp [hc])⟩
      intro c hc
      rcases (Memory.mem_insertByte m k v c).mp hc with rfl | hc
      · show k0 < k
        omega
      · exact h0 c hc

theorem Memory.mem_writeByte {m : Memory} {k : Nat} {v : Byte} {c : Host.Cell} (h : c ∈ Memory.writeByte m k v) :
    (c = (k, v) ∧ v ≠ unlistedByte) ∨ c ∈ m := by
  unfold Memory.writeByte at h
  split at h
  · exact Or.inr (List.mem_filter.mp h).1
  · rcases (Memory.mem_insertByte _ _ _ _).mp h with rfl | h
    · exact Or.inl ⟨rfl, ‹_›⟩
    · exact Or.inr (List.mem_filter.mp h).1

theorem Memory.writeByte_wf {m : Memory} (k : Nat) (v : Byte) (h : Memory.wf m = true) :
    Memory.wf (Memory.writeByte m k v) = true := by
  obtain ⟨hp, hu⟩ := (Memory.wf_iff m).mp h
  refine (Memory.wf_iff _).mpr ⟨?_, ?_⟩
  · unfold Memory.writeByte
    split
    · exact hp.filter _
    · exact Memory.pairwise_insertByte _ _ _ (hp.filter _) (by simp)
  · intro c hc
    rcases Memory.mem_writeByte hc with ⟨rfl, hv⟩ | hc
    · exact hv
    · exact hu c hc

theorem Memory.writeWord_wf {m : Memory} (a : Nat) (v : Word) (h : Memory.wf m = true) :
    Memory.wf (Memory.writeWord m a v) = true :=
  Memory.writeByte_wf _ _ (Memory.writeByte_wf _ _ (Memory.writeByte_wf _ _ (Memory.writeByte_wf _ _ h)))

theorem Memory.writeWords_wf {m : Memory} (a : Nat) (ws : List Word) (h : Memory.wf m = true) :
    Memory.wf (Memory.writeWords m a ws) = true := by
  induction ws generalizing m a with
  | nil => exact h
  | cons w ws ih => exact ih _ (Memory.writeWord_wf _ _ h)

theorem storeAll_wf {p : Params} (ws : List (Word × Word)) {m : Memory} (h : Memory.wf m = true) :
    Memory.wf (storeAll ws p m) = true := by
  induction ws generalizing m with
  | nil => exact h
  | cons aw ws ih =>
    unfold storeAll
    split
    · exact ih (Memory.writeWord_wf _ _ h)
    · exact ih h

/-- The memory after reset is in canonical form. -/
theorem Memory.wf_nil : Memory.wf [] = true := rfl

/-! ### No byte outside memory -/

theorem Memory.writeByte_within {m : Memory} {p : Params} (k : Nat) (v : Byte) (hk : legalAddr p (k / 4) = true)
    (h : Memory.within m p = true) : Memory.within (Memory.writeByte m k v) p = true := by
  unfold Memory.within at *
  rw [List.all_eq_true] at *
  intro c hc
  rcases Memory.mem_writeByte hc with ⟨rfl, -⟩ | hc
  · exact hk
  · exact h c hc

theorem Memory.writeWord_within {m : Memory} {p : Params} (a : Nat) (v : Word) (ha : legalAddr p a = true)
    (h : Memory.within m p = true) : Memory.within (Memory.writeWord m a v) p = true := by
  have key : ∀ j, j < 4 → legalAddr p ((4 * a + j) / 4) = true := by
    intro j hj
    rwa [show (4 * a + j) / 4 = a by omega]
  exact Memory.writeByte_within _ _ (key 3 (by omega)) (Memory.writeByte_within _ _ (key 2 (by omega))
    (Memory.writeByte_within _ _ (key 1 (by omega)) (Memory.writeByte_within _ _ (key 0 (by omega)) h)))

theorem Memory.writeWords_within {p : Params} (ws : List Word) {m : Memory} (b : Nat)
    (hb : b + ws.length ≤ memWords p) (h : Memory.within m p = true) :
    Memory.within (Memory.writeWords m b ws) p = true := by
  induction ws generalizing m b with
  | nil => exact h
  | cons w ws ih =>
    rw [List.length_cons] at hb
    exact ih _ (by omega) (Memory.writeWord_within _ _ ((legalAddr_iff _ _).mpr (by omega)) h)

theorem storeAll_within {p : Params} (ws : List (Word × Word)) {m : Memory} (h : Memory.within m p = true) :
    Memory.within (storeAll ws p m) p = true := by
  induction ws generalizing m with
  | nil => exact h
  | cons aw ws ih =>
    unfold storeAll
    split
    · exact ih (Memory.writeWord_within _ _ ‹_› h)
    · exact ih h

/-- A word outside memory is touched by no handler. -/
theorem storeAll_readByte_outside {p : Params} (ws : List (Word × Word)) (m : Memory) {k : Nat}
    (hk : legalAddr p (k / 4) = false) : Memory.readByte (storeAll ws p m) k = Memory.readByte m k := by
  induction ws generalizing m with
  | nil => rfl
  | cons aw ws ih =>
    obtain ⟨a, v⟩ := aw
    unfold storeAll
    split
    · rename_i ha
      rw [ih, Memory.readByte_writeWord, if_neg]
      rintro ⟨h1, h2⟩
      rw [show k / 4 = a.toNat by omega, ha] at hk
      exact absurd hk (by simp)
    · exact ih m

/-- A word of memory after a handler's stores: the last one stored at its address, or the word before. -/
theorem storeAll_readWord {p : Params} (ws : List (Word × Word)) (m : Memory) {a : Nat} (ha : legalAddr p a = true) :
    Memory.readWord (storeAll ws p m) a
      = ((ws.reverse.find? fun w => w.1.toNat = a).map Prod.snd).getD (Memory.readWord m a) := by
  induction ws generalizing m with
  | nil => rfl
  | cons aw ws ih =>
    obtain ⟨b, v⟩ := aw
    unfold storeAll
    by_cases hb : b.toNat = a
    · rw [hb, if_pos ha, ih, Memory.readWord_writeWord, if_pos rfl, List.reverse_cons, List.find?_append]
      cases ws.reverse.find? fun w => w.1.toNat = a <;> simp [hb]
    · split <;> simp [ih, hb, Memory.readWord_writeWord]

end Sys2Proof.Machine
end

