-- ==== Sys2Proof/Laws/Codec.lean ====
section
/-! SUPPORT. The Instruction Table and the bits of encoded words. -/

namespace Sys2Proof

/-- No two rows of the Instruction Table share an opcode or a mnemonic. -/
theorem instructionTable_pairwise :
    instructionTable.Pairwise (fun r s => r.opcode ≠ s.opcode ∧ r.mnemonic ≠ s.mnemonic) := by decide

/-- The table and `OPCODE(m)` are one numbering. -/
theorem instructionTable_opcode : ∀ row ∈ instructionTable, row.opcode = row.mnemonic.opcode := by decide

/-- Every one of the sixteen opcodes is recognized (rule R62). -/
theorem recognized_all : ∀ op : BitVec 4, recognized op = true := by decide

/-- The table finds a mnemonic's row by its opcode. -/
theorem rowOfOpcode_opcode (m : Mnemonic) : (rowOfOpcode m.opcode).map InstrRow.mnemonic = some m := by
  cases m <;> decide

/-- Only `halt` has no operand. -/
theorem arity_eq_zero_iff (m : Mnemonic) : arity m.opcode = 0 ↔ m = .halt := by
  cases m <;> decide

theorem Fields.illegal_eq_reserved (d : Fields) : d.illegal = d.reserved := by
  simp [Fields.illegal, recognized_all]

/-- The bits of an encoded word (rule R60). -/
theorem encodeWord_getLsbD (o m a b c : BitVec 4) (n : Nat) :
    (encodeWord o.toNat m.toNat a.toNat b.toNat c.toNat).getLsbD n
      = if n < 4 then a.getLsbD n else if n < 8 then b.getLsbD (n - 4) else if n < 12 then c.getLsbD (n - 8)
        else if n < 24 then false else if n < 28 then m.getLsbD (n - 24) else if n < 32 then o.getLsbD (n - 28)
        else false := by
  simp only [encodeWord, BitVec.ofNat_toNat, BitVec.setWidth_eq, BitVec.getLsbD_or, BitVec.getLsbD_shiftLeft,
    BitVec.getLsbD_setWidth]
  have hz : ∀ (x : BitVec 4) k, 4 ≤ k → x.getLsbD k = false := fun x k h => BitVec.getLsbD_of_ge x k h
  split_ifs <;> grind

/-- The mode nibble as bits, `rega_deref` lowest (rule R52). -/
theorem modes_eq_append (d : Fields) : BitVec.ofNat 4 d.modes
    = BitVec.ofBool d.immediate ++ BitVec.ofBool d.regcDeref ++ BitVec.ofBool d.regbDeref ++ BitVec.ofBool d.regaDeref := by
  obtain ⟨_, a, b, c, i, _, _, _⟩ := d
  revert a b c i
  simp only [Fields.modes]
  decide

/-- A 4-bit field is what its bits say. -/
theorem extractLsb'_eq_of_getLsbD {w : Word} {lo : Nat} {x : BitVec 4}
    (h : ∀ i, i < 4 → w.getLsbD (lo + i) = x.getLsbD i) : w.extractLsb' lo 4 = x := by
  apply BitVec.eq_of_getLsbD_eq
  intro i hi
  simp [hi, h i hi]

/-- The fields of a well-formed instruction stand for it. -/
theorem Instr.instr_fields {i : Instr} (h : i.wellFormed = true) :
    i.fields.instr ((i.slotC.bind COperand.immediateWord).getD 0) = some i := by
  cases i with
  | halt => rfl
  | inp c => cases c <;> first | rfl | cases h
  | move d c => cases d <;> cases c <;> rfl
  | br c | brz c | brnz c | out c | callBif c => cases c <;> rfl
  | add a b c | sub a b c | mul a b c | div a b c | shr a b c | shl a b c | nand a b c | xor a b c =>
    cases a <;> cases b <;> cases c <;> rfl

/-- The fields of a well-formed instruction announce its Immediate Word. -/
theorem Instr.needImm_fields {i : Instr} (h : i.wellFormed = true) :
    i.fields.needImm = (i.slotC.bind COperand.immediateWord).isSome := by
  cases i with
  | halt => rfl
  | inp c => cases c <;> first | rfl | cases h
  | move d c => cases d <;> cases c <;> rfl
  | br c | brz c | brnz c | out c | callBif c => cases c <;> rfl
  | add a b c | sub a b c | mul a b c | div a b c | shr a b c | shl a b c | nand a b c | xor a b c =>
    cases a <;> cases b <;> cases c <;> rfl

/-- Every opcode is some mnemonic's. -/
theorem exists_mnemonic (o : BitVec 4) : ∃ m : Mnemonic, o = m.opcode := by
  have h : ∀ o : BitVec 4, ∃ row ∈ instructionTable, o = row.mnemonic.opcode := by decide
  obtain ⟨row, -, e⟩ := h o
  exact ⟨row.mnemonic, e⟩

/-- A Decoded Instruction that is not reserved stands for a well-formed instruction, two words long exactly when it
needs an Immediate Word (rules R59, R75). -/
theorem Fields.instr_of_not_reserved {d : Fields} (imm : Word) (h : d.reserved = false) :
    ∃ i, d.instr imm = some i ∧ i.wellFormed = true ∧ i.length = if d.needImm then 2 else 1 := by
  obtain ⟨o, ra, rb, rc, im, c, b, a⟩ := d
  obtain ⟨m, rfl⟩ := exists_mnemonic o
  cases m <;> cases im <;> cases rc <;> first | (cases h; done) | exact ⟨_, rfl, rfl, rfl⟩

/-- Image bytes of words give the words back (rule R151). -/
theorem imageWords_flatMap (ws : List Word) : imageWords (ws.flatMap bytesOfWord) = some ws := by
  induction ws with
  | nil => rfl
  | cons w ws ih => simp [bytesOfWord, imageWords, ih, Machine.wordOfBytes_byteOfWord]

/-- The words of image bytes: as many as the bytes hold, each of its own four bytes; none for a broken word. -/
theorem imageWords_spec (bs : List Byte) :
    (∀ ws, imageWords bs = some ws → 4 * ws.length = bs.length ∧ ∀ a, a < ws.length →
      ws.getD a 0 = wordOfBytes (bs.getD (4 * a) 0) (bs.getD (4 * a + 1) 0) (bs.getD (4 * a + 2) 0) (bs.getD (4 * a + 3) 0)) ∧
    (imageWords bs = none → ¬ 4 ∣ bs.length) := by
  match bs with
  | [] => exact ⟨fun ws h => by cases h; simp, fun h => (nomatch h)⟩
  | [_] => exact ⟨fun ws h => (nomatch h), fun _ => by simp⟩
  | [_, _] => exact ⟨fun ws h => (nomatch h), fun _ => by simp⟩
  | [_, _, _] => exact ⟨fun ws h => (nomatch h), fun _ => by simp⟩
  | b0 :: b1 :: b2 :: b3 :: rest =>
    obtain ⟨ih1, ih2⟩ := imageWords_spec rest
    unfold imageWords
    cases hr : imageWords rest with
    | none => exact ⟨fun ws h => (nomatch h), fun _ => by have := ih2 hr; simp; omega⟩
    | some ws' =>
      obtain ⟨h1, h2⟩ := ih1 ws' hr
      refine ⟨fun ws h => ?_, fun h => (nomatch h)⟩
      cases h
      refine ⟨by simp; omega, fun a ha => ?_⟩
      cases a with
      | zero => rfl
      | succ a => simpa [Nat.mul_add] using h2 a (by simpa using ha)

end Sys2Proof
end

