-- ==== Sys2Proof/Laws/Exec.lean ====
section
/-! SUPPORT. What the shared operations of the meanings can do, said once for each. -/

namespace Sys2Proof.Machine

open Host (Outcome)

/-! ### Memory access -/

theorem State.memRead_legal (s : State) {a : Word} (h : legalAddr s.params a.toNat = true) :
    s.memRead a = some (Memory.readWord s.mem a.toNat) := by
  simp [State.memRead, h]

theorem State.memRead_illegal (s : State) {a : Word} (h : legalAddr s.params a.toNat = false) : s.memRead a = none := by
  simp [State.memRead, h]

theorem State.memWrite_eq_some {s t : State} {a v : Word} (h : s.memWrite a v = some t) :
    legalAddr s.params a.toNat = true ∧ t = { s with mem := Memory.writeWord s.mem a.toNat v } := by
  unfold State.memWrite at h
  split at h
  · exact ⟨‹_›, (Option.some.inj h).symm⟩
  · cases h

/-! ### The write-back -/

/-- A write-back that succeeds is one register write, or one store below `MEM_WORDS`. -/
theorem State.writeDst_cases {s t : State} {d : Dest} {v : Word} (h : s.writeDst d v = some t) :
    (∃ r, d = .reg r ∧ t = s.setReg r v) ∨
    (∃ a, d = .mem a ∧ legalAddr s.params a.toNat = true ∧
      t = { s with mem := Memory.writeWord s.mem a.toNat v }) := by
  cases d with
  | reg r => exact .inl ⟨r, rfl, (Option.some.inj h).symm⟩
  | mem a =>
    obtain ⟨ha, rfl⟩ := State.memWrite_eq_some h
    exact .inr ⟨a, rfl, ha, rfl⟩

/-- A write-back fails only at a cell that does not exist. -/
theorem State.writeDst_eq_none {s : State} {d : Dest} {v : Word} (h : s.writeDst d v = none) :
    ∃ a, d = .mem a ∧ legalAddr s.params a.toNat = false := by
  cases d with
  | reg r => cases h
  | mem a =>
    refine ⟨a, rfl, ?_⟩
    simp only [State.writeDst, State.memWrite] at h
    split at h
    · cases h
    · rename_i ha
      simpa using ha

theorem State.writeDst_isSome (s : State) (d : Dest) (v : Word) :
    (s.writeDst d v).isSome = d.writable s.params := by
  cases d with
  | reg r => rfl
  | mem a =>
    simp only [State.writeDst, State.memWrite, Dest.writable]
    split <;> simp_all

/-- The end of a step: a write-back and what follows it, or a failure with nothing written. -/
theorem State.finishWrite_cases (s : State) (d : Dest) (v : Word) (after : State → State) :
    (∃ t, s.writeDst d v = some t ∧ s.finishWrite d v after = after t) ∨
    (s.writeDst d v = none ∧ s.finishWrite d v after = s.fail .outOfRange) := by
  unfold State.finishWrite
  cases h : s.writeDst d v with
  | none => exact .inr ⟨rfl, rfl⟩
  | some t => exact .inl ⟨t, rfl, rfl⟩

theorem State.sameOutside_refl (s : State) : State.SameOutside s s := ⟨rfl, rfl, rfl, rfl, rfl⟩

/-- The frame of a write-back followed by a register-only update that spares all but one register `r0`: other registers
than it and the destination stand, and so do the bytes outside the destination word and everything outside. -/
theorem State.finishWrite_frame {s : State} (d : Dest) (v : Word) {after : State → State} (r0 : Option Reg)
    (ha : ∀ u, (∀ r, some r ≠ r0 → (after u).reg r = u.reg r) ∧ (after u).mem = u.mem ∧ State.SameOutside u (after u)) :
    (∀ r, some r ≠ r0 → d ≠ .reg r → (s.finishWrite d v after).reg r = s.reg r) ∧
    (∀ k, d.covers k = false → Memory.readByte (s.finishWrite d v after).mem k = Memory.readByte s.mem k) ∧
    State.SameOutside s (s.finishWrite d v after) := by
  rcases s.finishWrite_cases d v after with ⟨u, hu, e⟩ | ⟨-, e⟩
  · rw [e]
    obtain ⟨hreg, hmem, hs⟩ := ha u
    rcases State.writeDst_cases hu with ⟨r1, rfl, rfl⟩ | ⟨a, rfl, -, rfl⟩
    · refine ⟨fun r hr hd => ?_, fun k _ => by rw [hmem]; rfl, hs⟩
      rw [hreg r hr, State.reg_setReg_other _ _ fun h => hd (by rw [h])]
    · refine ⟨fun r hr _ => (hreg r hr).trans rfl, fun k hk => ?_, hs⟩
      rw [hmem, Memory.readByte_writeWord, if_neg]
      simpa [Dest.covers] using hk
  · rw [e]
    exact ⟨fun _ _ _ => rfl, fun _ _ => rfl, State.sameOutside_refl s⟩

/-- The flag update touches FLAGS alone. -/
theorem State.flagUpdate_frame (x : Word) (u : State) :
    (∀ r, some r ≠ some Config.regFlags → (u.flagUpdate x).reg r = u.reg r) ∧ (u.flagUpdate x).mem = u.mem ∧
    State.SameOutside u (u.flagUpdate x) := by
  unfold State.flagUpdate
  split
  · exact ⟨fun r hr => State.reg_setZero_other _ fun h => hr (by rw [h]), rfl, State.sameOutside_refl u⟩
  · exact ⟨fun _ _ => rfl, rfl, State.sameOutside_refl u⟩

/-! ### The shared shapes of the meanings -/

/-- An arithmetic or logic step: a failing source, a failing operation, or a result written back. -/
theorem aluStep_cases (op : Word → Word → Except FailKind Word) (after : Word → State → State)
    (dst b : Operand) (c : COperand) (s : State) :
    (∃ k, aluStep op after dst b c s = .next ((s.advance (1 + c.extraWords)).fail k)) ∨
    (∃ bv cv r, (s.advance (1 + c.extraWords)).effB b = some bv ∧ (s.advance (1 + c.extraWords)).effC c = some cv ∧
      op bv cv = .ok r ∧ aluStep op after dst b c s
        = .next ((s.advance (1 + c.extraWords)).finishWrite ((s.advance (1 + c.extraWords)).dst dst) r (after r))) := by
  cases hb : (s.advance (1 + c.extraWords)).effB b with
  | none => exact .inl ⟨.outOfRange, by simp [aluStep, hb]⟩
  | some bv =>
    cases hc : (s.advance (1 + c.extraWords)).effC c with
    | none => exact .inl ⟨.outOfRange, by simp [aluStep, hb, hc]⟩
    | some cv =>
      cases hop : op bv cv with
      | error k => exact .inl ⟨k, by simp [aluStep, hb, hc, hop]⟩
      | ok r => exact .inr ⟨bv, cv, r, rfl, rfl, hop, by simp [aluStep, hb, hc, hop]⟩

/-- A step of an operation that never fails: a failing source, or a result written back. -/
theorem aluStep_total (op : Word → Word → Word) (after : Word → State → State)
    (dst b : Operand) (c : COperand) (s : State) :
    aluStep (fun x y => .ok (op x y)) after dst b c s = .next ((s.advance (1 + c.extraWords)).fail .outOfRange) ∨
    (∃ r, aluStep (fun x y => .ok (op x y)) after dst b c s
      = .next ((s.advance (1 + c.extraWords)).finishWrite ((s.advance (1 + c.extraWords)).dst dst) r (after r))) := by
  cases hb : (s.advance (1 + c.extraWords)).effB b with
  | none => exact .inl (by simp [aluStep, hb])
  | some bv =>
    cases hc : (s.advance (1 + c.extraWords)).effC c with
    | none => exact .inl (by simp [aluStep, hb, hc])
    | some cv => exact .inr ⟨op bv cv, by simp [aluStep, hb, hc]⟩

/-- A branch step: a failing target, or IP set to the target or left behind the branch's own words. -/
theorem branchStep_cases (taken : State → Bool) (target : COperand) (s : State) :
    branchStep taken target s = .next ((s.advance (1 + target.extraWords)).fail .outOfRange) ∨
    (∃ t, (s.advance (1 + target.extraWords)).effC target = some t ∧
      branchStep taken target s = .next (if taken (s.advance (1 + target.extraWords))
        then (s.advance (1 + target.extraWords)).setIp t else s.advance (1 + target.extraWords))) := by
  cases h : (s.advance (1 + target.extraWords)).effC target with
  | none => exact .inl (by simp [branchStep, h])
  | some t => exact .inr ⟨t, rfl, by simp [branchStep, h]⟩

/-- Reading a byte touches the input stream alone. -/
theorem State.inByte_cases {s t : State} {v : Word} (h : s.inByte = some (v, t)) :
    (∃ k rest, s.input = k :: rest ∧ v = k.setWidth 32 ∧ t = { s with input := rest }) ∨
    (s.input = [] ∧ s.inputEnded = true ∧ v = s.params.inEof ∧ t = s) := by
  unfold State.inByte at h
  split at h
  · simp only [Option.some.injEq, Prod.mk.injEq] at h
    exact .inl ⟨_, _, ‹_›, h.1.symm, h.2.symm⟩
  · split at h
    · simp only [Option.some.injEq, Prod.mk.injEq] at h
      exact .inr ⟨‹_›, ‹_›, h.1.symm, h.2.symm⟩
    · cases h

/-- A byte is missing exactly when the machine waits. -/
theorem State.inByte_eq_none_iff (s : State) : s.inByte = none ↔ s.waiting = true := by
  unfold State.inByte State.waiting
  cases s.input with
  | nil => cases s.inputEnded <;> simp
  | cons k rest => simp

/-- An input step: the reserved combination, the hold, or a word written back. -/
theorem execInp_cases (dst : COperand) (s : State) :
    (dst.isLocation = false ∧ execInp dst s = .next ((s.advance 1).fail .illegalInstruction)) ∨
    (s.waiting = true ∧ execInp dst s = .next s) ∨
    (∃ d v s2, (s.advance (1 + dst.extraWords)).dstC dst = some d ∧
      (s.advance (1 + dst.extraWords)).inByte = some (v, s2) ∧
      execInp dst s = .next (s2.finishWrite d v id)) := by
  cases hd : (s.advance (1 + dst.extraWords)).dstC dst with
  | none => cases dst <;> simp_all [execInp, State.dstC, COperand.isLocation]
  | some d =>
    cases hi : (s.advance (1 + dst.extraWords)).inByte with
    | none =>
      have hw := (State.inByte_eq_none_iff _).mp hi
      simp only [State.waiting, State.advance_input, State.advance_inputEnded] at hw
      exact .inr (.inl ⟨hw, by simp [execInp, hd, hi]⟩)
    | some p => exact .inr (.inr ⟨d, p.1, p.2, rfl, rfl, by simp [execInp, hd, hi]⟩)

/-- A `bif` step: a failing id operand, an id out of range, or the call. -/
theorem execBif_cases (id : COperand) (s : State) :
    (∃ k, execBif id s = .next ((s.advance (1 + id.extraWords)).fail k)) ∨
    (∃ v, (s.advance (1 + id.extraWords)).effC id = some v ∧ v.toNat < s.params.bifCount ∧
      execBif id s = .next ((s.advance (1 + id.extraWords)).bifCall v.toNat)) := by
  cases h : (s.advance (1 + id.extraWords)).effC id with
  | none => exact .inl ⟨.outOfRange, by simp [execBif, h]⟩
  | some v =>
    by_cases hv : s.params.bifCount ≤ v.toNat
    · exact .inl ⟨.invalidBif, by simp [execBif, h, hv]⟩
    · exact .inr ⟨v, rfl, by omega, by simp [execBif, h, hv]⟩

/-- `hello` appends its text and changes nothing else (rule R144). -/
theorem State.bifCall_hello (s : State) : s.bifCall 0 = { s with output := s.output ++ s.params.helloText } := rfl

/-- Every other built-in function leaves what its handler answers (rule R143). -/
theorem State.bifCall_other (s : State) {id : Nat} (h : id ≠ 0) :
    s.bifCall id = s.applyEffect (Config.bifHandler id s.bifCalls s.handlerView) := if_neg h

/-- The word a handler returns reaches nothing (rule R142). -/
theorem State.applyEffect_word (s : State) (e : HandlerEffect) (w : Word) :
    s.applyEffect { e with word := w } = s.applyEffect e := rfl

/-! ### `exec`, one equation per instruction over the shared shapes -/

theorem exec_add (dst b : Operand) (c : COperand) (s : State) :
    exec (.add dst b c) s = aluStep (fun x y => .ok (aluAdd x y)) keepFlags dst b c s := rfl
theorem exec_sub (dst b : Operand) (c : COperand) (s : State) :
    exec (.sub dst b c) s = aluStep (fun x y => .ok (aluSub x y)) (fun r t => t.flagUpdate r) dst b c s := rfl
theorem exec_mul (dst b : Operand) (c : COperand) (s : State) :
    exec (.mul dst b c) s = aluStep (fun x y => .ok (aluMul x y)) keepFlags dst b c s := rfl
theorem exec_div (dst b : Operand) (c : COperand) (s : State) :
    exec (.div dst b c) s = aluStep aluDiv keepFlags dst b c s := rfl
theorem exec_shr (dst b : Operand) (c : COperand) (s : State) :
    exec (.shr dst b c) s = aluStep (fun x y => .ok (aluShr x y)) keepFlags dst b c s := rfl
theorem exec_shl (dst b : Operand) (c : COperand) (s : State) :
    exec (.shl dst b c) s = aluStep (fun x y => .ok (aluShl x y)) keepFlags dst b c s := rfl
theorem exec_nand (dst b : Operand) (c : COperand) (s : State) :
    exec (.nand dst b c) s = aluStep (fun x y => .ok (aluNand x y)) keepFlags dst b c s := rfl
theorem exec_xor (dst b : Operand) (c : COperand) (s : State) :
    exec (.xor dst b c) s = aluStep (fun x y => .ok (aluXor x y)) keepFlags dst b c s := rfl
theorem exec_br (target : COperand) (s : State) :
    exec (.br target) s = branchStep (fun _ => true) target s := rfl
theorem exec_brz (target : COperand) (s : State) :
    exec (.brz target) s = branchStep (fun t => !t.zeroFlag) target s := rfl
theorem exec_brnz (target : COperand) (s : State) :
    exec (.brnz target) s = branchStep (fun t => t.zeroFlag) target s := rfl
theorem exec_halt (s : State) : exec .halt s = .next (s.advance 1).halt := rfl
theorem exec_move (dst : Operand) (src : COperand) (s : State) : exec (.move dst src) s = execMove dst src s := rfl
theorem exec_inp (dst : COperand) (s : State) : exec (.inp dst) s = execInp dst s := rfl
theorem exec_out (src : COperand) (s : State) : exec (.out src) s = execOut src s := rfl
theorem exec_callBif (id : COperand) (s : State) : exec (.callBif id) s = execBif id s := rfl

/-- A `move` step: a failing source, or its value written back. -/
theorem execMove_cases (dst : Operand) (src : COperand) (s : State) :
    execMove dst src s = .next ((s.advance (1 + src.extraWords)).fail .outOfRange) ∨
    (∃ v, (s.advance (1 + src.extraWords)).effC src = some v ∧ execMove dst src s
      = .next ((s.advance (1 + src.extraWords)).finishWrite ((s.advance (1 + src.extraWords)).dst dst) v id)) := by
  cases h : (s.advance (1 + src.extraWords)).effC src with
  | none => exact .inl (by simp [execMove, h])
  | some v => exact .inr ⟨v, rfl, by simp [execMove, h]⟩

/-- An `out` step: a failing source, or a byte appended. -/
theorem execOut_cases (src : COperand) (s : State) :
    execOut src s = .next ((s.advance (1 + src.extraWords)).fail .outOfRange) ∨
    (∃ v, (s.advance (1 + src.extraWords)).effC src = some v ∧
      execOut src s = .next ((s.advance (1 + src.extraWords)).outByte (v.setWidth 8))) := by
  cases h : (s.advance (1 + src.extraWords)).effC src with
  | none => exact .inl (by simp [execOut, h])
  | some v => exact .inr ⟨v, rfl, by simp [execOut, h]⟩

/-! ### Everything `exec` can do -/

/-- The state `exec i` leaves, by what happened; each case carries what the instruction and its operands then are. -/
inductive ExecEffect (i : Instr) (s : State) : State → Prop where
  | halts : i = .halt → ExecEffect i s (s.fetched i).halt
  | outOfRange : ExecEffect i s ((s.fetched i).fail .outOfRange)
  | reserved : i.wellFormed = false → ExecEffect i s ((s.fetched i).fail .illegalInstruction)
  | dividesByZero (dst b : Operand) (c : COperand) (x : Word) : i = .div dst b c → (s.fetched i).effB b = some x →
      (s.fetched i).effC c = some 0 → ExecEffect i s ((s.fetched i).fail .illegalOperation)
  | aboveTheTable (c : COperand) (v : Word) : i = .callBif c → (s.fetched i).effC c = some v →
      s.params.bifCount ≤ v.toNat → ExecEffect i s ((s.fetched i).fail .invalidBif)
  | jumps (c : COperand) (v : Word) : (s.fetched i).effC c = some v →
      (i = .br c ∨ (i = .brz c ∧ s.zeroFlag = false) ∨ (i = .brnz c ∧ s.zeroFlag = true)) →
      ExecEffect i s ((s.fetched i).setIp v)
  | fallsThrough (c : COperand) : ((i = .brz c ∧ s.zeroFlag = true) ∨ (i = .brnz c ∧ s.zeroFlag = false)) →
      ExecEffect i s (s.fetched i)
  | emits (c : COperand) (v : Word) : i = .out c → (s.fetched i).effC c = some v →
      ExecEffect i s ((s.fetched i).outByte (v.setWidth 8))
  | waits (c : COperand) : i = .inp c → s.waiting = true → ExecEffect i s s
  | calls (c : COperand) (v : Word) : i = .callBif c → (s.fetched i).effC c = some v → v.toNat < s.params.bifCount →
      ExecEffect i s ((s.fetched i).bifCall v.toNat)
  | reads (c : COperand) (d : Dest) (v : Word) (s2 : State) : i = .inp c → destOf i s = some d →
      (s.fetched i).inByte = some (v, s2) → ExecEffect i s (s2.finishWrite d v id)
  | writes (d : Dest) (v : Word) : destOf i s = some d → i.mnemonic ≠ .inp → i.mnemonic ≠ .sub →
      ExecEffect i s ((s.fetched i).finishWrite d v id)
  | subtracts (d : Dest) (v : Word) : destOf i s = some d → i.mnemonic = .sub →
      ExecEffect i s ((s.fetched i).finishWrite d v fun t => t.flagUpdate v)

/-- The zero flag is untouched by the fetches. -/
theorem State.flags_advance (s : State) (n : Nat) : (s.advance n).flags = s.flags :=
  State.reg_advance_other s n (by decide)

theorem State.zeroFlag_advance (s : State) (n : Nat) : (s.advance n).zeroFlag = s.zeroFlag := by
  rw [State.zeroFlag, State.flags_advance, State.zeroFlag]

/-- The state that stands in an outcome is the one it says. -/
theorem next_inj {a b : State} (h : (.next a : Outcome State Fault Refusal) = .next b) : a = b := by injection h

/-- Every answer of `exec` is one of the effects above. -/
theorem exec_effect {i : Instr} {s t : State} (h : exec i s = .next t) : ExecEffect i s t := by
  cases i with
  | halt => exact next_inj h ▸ .halts rfl
  | move d c =>
    rcases execMove_cases d c s with e | ⟨v, -, e⟩ <;> rw [← next_inj (e.symm.trans h)]
    · exact .outOfRange
    · exact .writes _ v rfl (nofun) (nofun)
  | br c =>
    rcases branchStep_cases (fun _ => true) c s with e | ⟨v, hv, e⟩ <;> rw [← next_inj (e.symm.trans h)]
    · exact .outOfRange
    · exact .jumps c v hv (.inl rfl)
  | brz c =>
    rcases branchStep_cases (fun t => !t.zeroFlag) c s with e | ⟨v, hv, e⟩ <;> rw [← next_inj (e.symm.trans h)]
    · exact .outOfRange
    · rw [State.zeroFlag_advance]
      cases hz : s.zeroFlag with
      | false => exact .jumps c v hv (.inr (.inl ⟨rfl, hz⟩))
      | true => exact .fallsThrough c (.inl ⟨rfl, hz⟩)
  | brnz c =>
    rcases branchStep_cases (fun t => t.zeroFlag) c s with e | ⟨v, hv, e⟩ <;> rw [← next_inj (e.symm.trans h)]
    · exact .outOfRange
    · rw [State.zeroFlag_advance]
      cases hz : s.zeroFlag with
      | false => exact .fallsThrough c (.inr ⟨rfl, hz⟩)
      | true => exact .jumps c v hv (.inr (.inr ⟨rfl, hz⟩))
  | out c =>
    rcases execOut_cases c s with e | ⟨v, hv, e⟩ <;> rw [← next_inj (e.symm.trans h)]
    · exact .outOfRange
    · exact .emits c v rfl hv
  | inp c =>
    rcases execInp_cases c s with ⟨hl, e⟩ | ⟨hw, e⟩ | ⟨d, v, s2, hd, hi, e⟩ <;> rw [← next_inj (e.symm.trans h)]
    · have hf : s.fetched (.inp c) = s.advance 1 := by simp [State.fetched, Instr.length, hl]
      exact hf ▸ .reserved hl
    · exact .waits c rfl hw
    · have hf : s.advance (1 + c.extraWords) = s.fetched (.inp c) := by
        cases c <;> first | rfl | cases hd
      rw [hf] at hd hi
      exact .reads c d v s2 rfl hd hi
  | callBif c =>
    rw [exec_callBif] at h
    unfold execBif at h
    cases hc : (s.advance (1 + c.extraWords)).effC c with
    | none =>
      simp only [hc] at h
      exact next_inj h ▸ .outOfRange
    | some v =>
      simp only [hc, State.advance_params] at h
      by_cases hv : s.params.bifCount ≤ v.toNat
      · exact next_inj ((if_pos hv).symm.trans h) ▸ .aboveTheTable c v rfl hc hv
      · exact next_inj ((if_neg hv).symm.trans h) ▸ .calls c v rfl hc (by omega)
  | div a b c =>
    rw [exec_div] at h
    unfold aluStep at h
    cases hb : (s.advance (1 + c.extraWords)).effB b with
    | none =>
      simp only [hb] at h
      exact next_inj h ▸ .outOfRange
    | some x =>
      cases hc : (s.advance (1 + c.extraWords)).effC c with
      | none =>
        simp only [hb, hc] at h
        exact next_inj h ▸ .outOfRange
      | some y =>
        by_cases hy : y = 0
        · simp only [hb, hc, aluDiv, if_pos hy] at h
          exact next_inj h ▸ .dividesByZero a b c x rfl hb (hy ▸ hc)
        · simp only [hb, hc, aluDiv, if_neg hy] at h
          exact next_inj h ▸ .writes _ _ rfl (nofun) (nofun)
  | sub a b c =>
    rcases aluStep_total (fun x y => aluSub x y) (fun r t => t.flagUpdate r) a b c s with e | ⟨r, e⟩ <;>
      rw [← next_inj (e.symm.trans h)]
    · exact .outOfRange
    · exact .subtracts _ r rfl rfl
  | add a b c | mul a b c | shr a b c | shl a b c | nand a b c | xor a b c =>
    simp only [exec_add, exec_mul, exec_shr, exec_shl, exec_nand, exec_xor] at h
    rcases aluStep_total _ _ a b c s with e | ⟨r, e⟩ <;> rw [← next_inj (e.symm.trans h)]
    · exact .outOfRange
    · exact .writes _ r rfl (nofun) (nofun)

/-! ### The fetch -/

/-- A fetch that fails leaves the state of rule R109: IP unmoved or one further, `RUN` failed, nothing else changed. -/
theorem State.fetch_error {s t : State} (h : s.fetch = .error t) :
    t = s.fail .outOfRange ∨ t = (s.advance 1).fail .outOfRange ∨ t = (s.advance 1).fail .illegalInstruction := by
  unfold State.fetch at h
  simp only at h
  split at h
  · exact .inl (Except.error.inj h).symm
  · right
    split at h
    · exact .inr (Except.error.inj h).symm
    · split at h
      · split at h
        · exact .inl (Except.error.inj h).symm
        · split at h
          · cases h
          · exact .inr (Except.error.inj h).symm
      · split at h
        · cases h
        · exact .inr (Except.error.inj h).symm

/-- What a step can do, from any state: nothing in a terminal state, a failing fetch, or an effect of the instruction
fetched. -/
theorem step_effect {s t : State} (h : step s = .next t) :
    (s.run ≠ .running ∧ t = s) ∨ (s.run = .running ∧ s.fetch = .error t) ∨
    (s.run = .running ∧ ∃ i, s.fetch = .ok i ∧ ExecEffect i s t) := by
  unfold step at h
  cases hr : s.run with
  | running =>
    cases hf : s.fetch with
    | ok i =>
      simp only [hr, hf] at h
      exact .inr (.inr ⟨rfl, i, rfl, exec_effect h⟩)
    | error u =>
      simp only [hr, hf] at h
      exact .inr (.inl ⟨rfl, by rw [next_inj h]⟩)
  | halted =>
    simp only [hr] at h
    exact .inl ⟨by simp, (next_inj h).symm⟩
  | failed k =>
    simp only [hr] at h
    exact .inl ⟨by simp, (next_inj h).symm⟩

/-- A step of a running machine is the fetched instruction's meaning, or the fetch's failure. -/
theorem step_running {s : State} (h : s.run = .running) :
    (∃ i, s.fetch = .ok i ∧ step s = exec i s) ∨ (∃ t, s.fetch = .error t ∧ step s = .next t) := by
  unfold step
  rw [h]
  cases hf : s.fetch with
  | ok i => exact .inl ⟨i, rfl, by simp⟩
  | error t => exact .inr ⟨t, rfl, by simp⟩

end Sys2Proof.Machine
end

