-- ==== Sys2Proof/Laws/PerInstr.lean ====
section
/-! SUPPORT. Per-instruction facts about the syntax: how many words an instruction is encoded by. -/

namespace Sys2Proof.Laws.EncodedLength

/-- A well-formed instruction is encoded by as many words as the core consumes for it (rules R50, R59, R67). -/
def Statement (i : Instr) : Prop := i.wellFormed = true → (encode i).length = i.length

/-- A C operand contributes its Immediate Word, or nothing. -/
theorem immediateWord_length (c : COperand) : c.immediateWord.toList.length = c.extraWords := by
  cases c <;> rfl

/-- The words of an instruction with a C operand: the Instruction Word and what the operand adds. -/
theorem encode_length_of_slotC {i : Instr} {c : COperand} (h : i.slotC = some c) :
    (encode i).length = 1 + c.extraWords := by
  simp [encode, h, Nat.add_comm, ← immediateWord_length]

theorem halt : Statement .halt := fun _ => rfl
theorem move (dst : Operand) (src : COperand) : Statement (.move dst src) := fun _ => encode_length_of_slotC rfl
theorem add (dst b : Operand) (c : COperand) : Statement (.add dst b c) := fun _ => encode_length_of_slotC rfl
theorem sub (dst b : Operand) (c : COperand) : Statement (.sub dst b c) := fun _ => encode_length_of_slotC rfl
theorem mul (dst b : Operand) (c : COperand) : Statement (.mul dst b c) := fun _ => encode_length_of_slotC rfl
theorem div (dst b : Operand) (c : COperand) : Statement (.div dst b c) := fun _ => encode_length_of_slotC rfl
theorem shr (dst b : Operand) (c : COperand) : Statement (.shr dst b c) := fun _ => encode_length_of_slotC rfl
theorem shl (dst b : Operand) (c : COperand) : Statement (.shl dst b c) := fun _ => encode_length_of_slotC rfl
theorem nand (dst b : Operand) (c : COperand) : Statement (.nand dst b c) := fun _ => encode_length_of_slotC rfl
theorem xor (dst b : Operand) (c : COperand) : Statement (.xor dst b c) := fun _ => encode_length_of_slotC rfl
theorem br (target : COperand) : Statement (.br target) := fun _ => encode_length_of_slotC rfl
theorem brz (target : COperand) : Statement (.brz target) := fun _ => encode_length_of_slotC rfl
theorem brnz (target : COperand) : Statement (.brnz target) := fun _ => encode_length_of_slotC rfl
theorem inp (dst : COperand) : Statement (.inp dst) := by
  intro h
  rw [encode_length_of_slotC rfl]
  exact (if_pos h).symm
theorem out (src : COperand) : Statement (.out src) := fun _ => encode_length_of_slotC rfl
theorem callBif (id : COperand) : Statement (.callBif id) := fun _ => encode_length_of_slotC rfl

end Sys2Proof.Laws.EncodedLength
end

