-- ==== Sys2Proof/Laws/Run.lean ====
section
/-! SUPPORT. The host's acts and `Run`: what each act leaves, and one unfolding of `runThrough`. -/

namespace Sys2Proof.Machine

/-! ### The host's acts -/

/-- Before the end of `IN` is signalled, bytes are appended. -/
theorem State.supplyInput_open {s : State} (h : s.inputEnded = false) (bytes : List Byte) :
    s.supplyInput bytes = { s with input := s.input ++ bytes } := by
  simp [State.supplyInput, h]

/-- After the end of `IN` is signalled, nothing is appended. -/
theorem State.supplyInput_ended {s : State} (h : s.inputEnded = true) (bytes : List Byte) :
    s.supplyInput bytes = s := by
  simp [State.supplyInput, h]

/-- An act of the host touches the input stream alone. -/
theorem State.hostAct_frame (s : State) (act : HostAct) :
    (s.hostAct act).regs = s.regs ∧ (s.hostAct act).mem = s.mem ∧ (s.hostAct act).run = s.run ∧
    (s.hostAct act).output = s.output ∧ (s.hostAct act).params = s.params ∧ (s.hostAct act).bifCalls = s.bifCalls := by
  simp only [State.hostAct, State.supplyInput]
  split <;> split <;> exact ⟨rfl, rfl, rfl, rfl, rfl, rfl⟩

/-- A host that does nothing leaves the state as it is. -/
@[simp] theorem State.hostAct_nothing (s : State) : s.hostAct .nothing = s := by
  simp [State.hostAct, HostAct.nothing, State.supplyInput]

/-- After the end of `IN` is signalled the host changes nothing. -/
theorem State.hostAct_ended {s : State} (h : s.inputEnded = true) (act : HostAct) : s.hostAct act = s := by
  have he : s.endInput = s := by
    obtain ⟨_, _, _, _, _, _, _, _⟩ := s
    simp_all [State.endInput]
  simp [State.hostAct, State.supplyInput_ended h, he]

@[simp] theorem State.hostAct_run (s : State) (act : HostAct) : (s.hostAct act).run = s.run :=
  (s.hostAct_frame act).2.2.1

/-! ### `Run` -/

@[simp] theorem State.runThrough_nil (s : State) : s.runThrough [] = .next s := rfl

/-- A terminal state ends the run. -/
theorem State.runThrough_over {s : State} (h : s.run ≠ .running) (acts : List HostAct) : s.runThrough acts = .next s := by
  cases acts with
  | nil => rfl
  | cons act acts =>
    unfold State.runThrough
    split <;> simp_all

/-- While Running, one act and one step are made, and the run goes on from there. -/
theorem State.runThrough_running {s t : State} (h : s.run = .running) {act : HostAct}
    (ht : step (s.hostAct act) = .next t) (acts : List HostAct) :
    s.runThrough (act :: acts) = t.runThrough acts := by
  conv => lhs; unfold State.runThrough
  simp [h, ht]

/-- A run through more acts goes on from where the first acts lead. -/
theorem State.runThrough_append {s t : State} {acts : List HostAct} (h : s.runThrough acts = .next t)
    (more : List HostAct) : s.runThrough (acts ++ more) = t.runThrough more := by
  induction acts generalizing s with
  | nil =>
    rw [← next_inj h]
    rfl
  | cons act acts ih =>
    by_cases hr : s.run = .running
    · cases hs : step (s.hostAct act) with
      | next u =>
        rw [State.runThrough_running hr hs] at h
        rw [List.cons_append, State.runThrough_running hr hs, ih h]
      | fault r => nomatch r
      | refused r => simp [State.runThrough, hr, hs] at h
    · rw [State.runThrough_over hr] at h
      rw [← next_inj h, State.runThrough_over hr, State.runThrough_over hr]

@[simp] theorem hostPrefix_zero (host : Nat → HostAct) : hostPrefix host 0 = [] := rfl

theorem hostPrefix_succ (host : Nat → HostAct) (n : Nat) : hostPrefix host (n + 1) = hostPrefix host n ++ [host n] := by
  simp [hostPrefix, List.range_succ]

end Sys2Proof.Machine
end

