-- ==== Sys2Proof/Tests/Slice0.lean ====
section
/-! SUPPORT. The model's own tests: words and results of the spec's test vectors (`95_test_vectors.md`), the well-formedness
smoke test, and a witness for the hypotheses of every statement that has some. -/

namespace Sys2Proof.Tests

open Sys2Proof.Machine

/-- The common start of the vectors (`95_test_vectors.md` section 3): the words are the image, eight words of stack area
above it, one built-in function. -/
def machine (ws : List Word) (regs : List (Reg × Word)) (stack : List Word := []) (input : List Byte := []) : State :=
  regs.foldl (fun s rv => s.setReg rv.1 rv.2) (State.launchWords
    { stackReserve := 8, bifCount := 1, inEof := 0xFFFFFFFF, helloText := [0x48, 0x69],
      resetReg := Vector.replicate 16 0xEEEEEEEE, resetMem := stack, input := input, inputEnded := false } ws)

/-- The state after one step, if it answers one. -/
def after (s : State) : Option State :=
  match step s with
  | .next t => some t
  | .fault _ => none
  | .refused _ => none

/-- A register, IP, FLAGS and `RUN` after one step. -/
def seen (s : State) (r : Reg) : Option (Word × Word × Word × RunState) :=
  (after s).map fun t => (t.reg r, t.ip, t.flags, t.run)

/-- A memory word, IP, FLAGS and `RUN` after one step. -/
def seenMem (s : State) (a : Nat) : Option (Word × Word × Word × RunState) :=
  (after s).map fun t => (Memory.readWord t.mem a, t.ip, t.flags, t.run)

/-- The streams, IP and `RUN` after one step. -/
def seenIo (s : State) : Option (List Byte × List Byte × Word × RunState) :=
  (after s).map fun t => (t.input, t.output, t.ip, t.run)

/-! ### Well-formedness -/

theorem test_wellFormed_refuses_literal_in : (Instr.inp (.immediate 5)).wellFormed = false := by decide
theorem test_wellFormed_accepts_absolute_in : (Instr.inp (.absolute 5)).wellFormed = true := by decide

/-! ### Decoding (section 2; each family's words bit by bit are in Decode.lean) -/

theorem test_decode_junk_halt : decodeWords [0x0FFFFFFF] = .ok (.halt, []) := by decide
theorem test_decode_unused_bits : decodeWords [0x10FFF210] = .ok (.move (.direct 1) (.direct 2), []) := by decide
theorem test_decode_all_flags : decodeWords [0x2FFFFFFF, 3]
    = .ok (.add (.indirect 15) (.indirect 15) (.absolute 3), []) := by decide
theorem test_decode_reserved_any_a_b : decodeWords [0xDB000000, 0] = .error .reservedCombination := by decide
theorem test_decode_bif_all_ones : decodeWords [0xFFFFFFFF, 7] = .ok (.callBif (.absolute 7), []) := by decide
theorem test_decode_missing_immediate : decodeWords [0x28000021] = .error .missingImmediate := by decide
theorem test_decode_broken_word : decodeBytes [0x28, 0x00, 0x00] = .error .truncatedWord := by decide
theorem test_encode_truncates_index : encodeWord 2 0 1 18 35 = 0x20000321 := by decide
theorem test_encode_masks_opcode_and_modes :
    encodeWord 18 0 0 0 0 = 0x20000000 ∧ encodeWord 2 0x18 1 2 0 = 0x28000021 := by decide
theorem test_encode_add_bytes : encodeBytes (.add (.direct 1) (.direct 2) (.immediate 5))
    = [0x28, 0x00, 0x00, 0x21, 0x00, 0x00, 0x00, 0x05] := by decide

/-! ### halt, move (sections 3.1, 3.2) -/

theorem test_halt : (seen (machine [0x0FFFFFFF] []) 1).map (fun x => (x.2.1, x.2.2.2)) = some (1, .halted) := by decide
theorem test_move_ip_reads_next : seen (machine [0x10000A10] [(14, 0)]) 1 = some (1, 1, 0, .running) := by decide
theorem test_move_same_register_twice : seenMem (machine [0x12000110] [(1, 4), (14, 0)]) 4
    = some (4, 1, 0, .running) := by decide

/-! ### Arithmetic and logic (section 3.3) -/

theorem test_add_wraps_no_flag : seen (machine [0x20000321] [(2, 0xFFFFFFFF), (3, 1), (14, 0)]) 1
    = some (0, 1, 0, .running) := by decide
theorem test_add_memory_to_memory : seenMem (machine [0x2B000011, 1] [(1, 5), (14, 0)] [0, 0, 0, 41]) 5
    = some (42, 2, 0, .running) := by decide
theorem test_sub_flags_destination : seen (machine [0x3000022E] [(2, 9), (14, 0xFFFF0000)]) 14
    = some (2, 1, 2, .running) := by decide
theorem test_sub_sticky : seen (machine [0x30000321] [(2, 3), (3, 5), (14, 2)]) 1
    = some (0xFFFFFFFE, 1, 2, .running) := by decide
theorem test_mul_low_word : seen (machine [0x40000654] [(5, 0xFFFFFFFF), (6, 0xFFFFFFFF), (14, 0)]) 4
    = some (1, 1, 0, .running) := by decide
theorem test_div_unsigned : seen (machine [0x50000321] [(2, 0xFFFFFFFF), (3, 2), (14, 0)]) 1
    = some (0x7FFFFFFF, 1, 0, .running) := by decide
theorem test_div_by_zero_before_destination : seen (machine [0x59000021, 0] [(1, 0x1000), (2, 5), (14, 0)]) 1
    = some (0x1000, 2, 0, .failed .illegalOperation) := by decide
theorem test_shr_logical : seen (machine [0x60000321] [(2, 0x80000000), (3, 31), (14, 0)]) 1
    = some (1, 1, 0, .running) := by decide
theorem test_shr_wide_is_free : (seen (machine [0x60000321] [(2, 0x80000000), (3, 32), (14, 0)]) 1).map (fun x => x.2)
    = some (1, 0, .running) := by decide
theorem test_shl_31 : seen (machine [0x70000321] [(2, 1), (3, 31), (14, 0)]) 1
    = some (0x80000000, 1, 0, .running) := by decide
theorem test_nand : seen (machine [0x80000321] [(2, 0xF0F0F0F0), (3, 0xFF00FF00), (14, 0)]) 1
    = some (0x0FFF0FFF, 1, 0, .running) := by decide
theorem test_xor_flags : seen (machine [0x90000EEE] [(14, 2)]) 14 = some (0, 1, 0, .running) := by decide

/-! ### Branches (section 3.4) -/

theorem test_br_indirect : seen (machine [0xA4000200] [(2, 3), (14, 0)] [0, 0, 0x20]) 2
    = some (3, 0x20, 0, .running) := by decide
theorem test_brz_looks_at_bit_1 : seen (machine [0xB8000000, 4] [(14, 0xFFFFFFFD), (1, 7)]) 1
    = some (7, 4, 0xFFFFFFFD, .running) := by decide
theorem test_brz_resolves_first : seen (machine [0xB4000200] [(2, 100), (14, 2)]) 2
    = some (100, 1, 2, .failed .outOfRange) := by decide
theorem test_brnz_taken : seen (machine [0xC0000300] [(3, 20), (14, 2)]) 3 = some (20, 20, 2, .running) := by decide
theorem test_brnz_not_taken : seen (machine [0xC0000300] [(3, 20), (14, 0)]) 3 = some (20, 1, 0, .running) := by decide

/-! ### in, out, bif (section 3.5) -/

theorem test_in_zero_extends : seenMem (machine [0xD4000100] [(1, 4), (14, 0)] [] [0xFF]) 4
    = some (0xFF, 1, 0, .running) := by decide
theorem test_in_out_of_range_consumes : seenIo (machine [0xD4000100] [(1, 100)] [] [0x41, 0x42])
    = some ([0x42], [], 1, .failed .outOfRange) := by decide
theorem test_out_low_byte : seenIo (machine [0xE0000100] [(1, 0x141)]) = some ([], [0x41], 1, .running) := by decide
theorem test_bif_hello : seenIo (machine [0xF8000000, 0] []) = some ([], [0x48, 0x69], 2, .running) := by decide
theorem test_bif_above_table : seenIo (machine [0xF8000000, 1] []) = some ([], [], 2, .failed .invalidBif) := by decide

/-! ### The host's side (rules R108, R152, R158) -/

theorem test_loader_refuses_truncated_image :
    imageComplete [0x28000021] = false ∧ imageComplete [0x00000000, 0xD8000000] = false ∧
    imageComplete [0x28000021, 0x28000021] = true ∧ imageComplete [0x08000000] = true := by decide
theorem test_no_byte_after_the_end : (machine [0xD0000100] []).endInput.supplyInput [0x41]
    = (machine [0xD0000100] []).endInput := by decide
theorem test_run_waits_for_its_byte :
    (match (machine [0xD0000100, 0x00000000] []).runThrough [.nothing, ⟨[0x41], false⟩, .nothing] with
      | .next t => some (t.reg 1, t.ip, t.run)
      | .fault _ => none
      | .refused _ => none) = some (0x41, 2, .halted) := by decide

/-! ### Witnesses: concrete states and operands that meet the hypotheses of a statement, clause by clause -/

/-- A Bif Table of two entries, for a call that is not `hello`. -/
def withTwoBifs (s : State) : State := { s with params := { s.params with bifCount := 2 } }

/-- What the host fixes in the witnesses about reset. -/
def launch0 : Launch where
  stackReserve := 8
  bifCount := 1
  inEof := 0
  helloText := [0x48]
  resetReg := Vector.replicate 16 7
  resetMem := [9]
  input := [0x41]
  inputEnded := false

theorem witness_FieldsAreTheRulesBits :
    (0xABCDE321 : Word) &&& 0xFF000FFF = (0xAB000321 : Word) &&& 0xFF000FFF := by decide

theorem witness_DecodeInvertsEncode :
    (Instr.callBif (.absolute 0xFFFFFFFF)).wellFormed = true ∧ (Instr.inp (.direct 15)).wellFormed = true := by decide

theorem witness_OnlyTheReservedWordIsRefused :
    (0xDBFFFFFF : Word) &&& 0xFC000000 = 0xD8000000 ∧ (0xDC000000 : Word) &&& 0xFC000000 ≠ 0xD8000000 ∧
    (0xD7FFFFFF : Word) &&& 0xFC000000 ≠ 0xD8000000 := by decide

theorem witness_EmittedProgramsScanComplete :
    (∀ i ∈ [Instr.br (.immediate 2), .halt], i.wellFormed = true) ∧ (Instr.out (.absolute 3)).wellFormed = true ∧
    ((Instr.out (.absolute 3)).slotC.bind COperand.immediateWord).isSome = true := by decide

theorem witness_AssemblingAListingLineGivesItBack : (Instr.out (.immediate 10)).mnemonic ≠ .callBif := by decide

theorem witness_ResetLoadsTheImage :
    ∃ s, State.launch launch0 [0x28, 0x00, 0x00, 0x21, 0x00, 0x00, 0x00, 0x05] = some s ∧
      1 < s.params.progLen ∧ s.params.progLen < 2 ^ 32 ∧ (15 : Reg) ≠ Config.regIp ∧ (15 : Reg) ≠ Config.regSp :=
  ⟨_, rfl, by decide⟩

theorem witness_LaunchMeetsTheInvariant : ∃ s, State.launch launch0 [0x00, 0x00, 0x00, 0x00] = some s := ⟨_, rfl⟩

/-- The largest memory there is an instance for, and one word more. -/
theorem witness_ResetExactlyForLegalImages :
    (State.launch { launch0 with stackReserve := 2 ^ 32 - 1, resetMem := [] } [0, 0, 0, 0]).isSome = true ∧
    (State.launch { launch0 with stackReserve := 2 ^ 32, resetMem := [] } [0, 0, 0, 0]).isSome = false ∧
    (State.launch launch0 [0, 0, 0]).isSome = false ∧ (State.launch { launch0 with bifCount := 0 } []).isSome = false := by
  decide

theorem witness_StepKeepsTheInvariant :
    State.Inv (machine [0x31000221] [(1, 8), (2, 9)] [1, 2, 3]) ∧
      ∃ t, step (machine [0x31000221] [(1, 8), (2, 9)] [1, 2, 3]) = .next t ∧ t.mem ≠ [] :=
  ⟨⟨by decide, by decide, by decide⟩, _, rfl, by decide⟩

theorem witness_StepRunsTheDecodedInstruction :
    (machine [0x30000221] []).run = .running ∧ (machine [0x30000221] []).memRead 0 = some 0x30000221 ∧
    decodeWords [0x30000221] = .ok (.sub (.direct 1) (.direct 2) (.direct 2), []) ∧
    (machine [0x28000021, 5] []).memRead 0 = some 0x28000021 ∧ (machine [0x28000021, 5] []).memRead 1 = some 5 ∧
    decodeWords [0x28000021, 5] = .ok (.add (.direct 1) (.direct 2) (.immediate 5), []) := by decide

theorem witness_TerminalStatesStay : ((machine [] []).fail .invalidBif).run ≠ .running := by decide

theorem witness_EveryStepAnswersANextState :
    (machine [0] []).run = .running ∧ (∃ t, step ((machine [0] []).hostAct ⟨[0x41], true⟩) = .next t) ∧
    (∃ t, (machine [0] []).runThrough [.nothing] = .next t ∧ t.run ≠ .running) ∧
    ∃ t, (machine [0] []).RunEnds (fun _ => .nothing) t :=
  ⟨rfl, ⟨_, rfl⟩, ⟨_, rfl, nofun⟩, ⟨_, 1, rfl, nofun⟩⟩

theorem witness_ResetStateIsALaunch : ∃ s, State.launch launch0 [] = some s := ⟨_, rfl⟩

theorem witness_HaltedOnlyByHalt :
    ∃ t, step (machine [0] []) = .next t ∧ (machine [0] []).run = .running ∧ t.run = .halted := ⟨_, rfl, rfl, rfl⟩

theorem witness_IllegalDecodeFails :
    (machine [0xD8000000, 5] []).run = .running ∧ (machine [0xD8000000, 5] []).memRead 0 = some 0xD8000000 ∧
    (Fields.ofWord 0xD8000000).illegal = true := by decide

theorem witness_FetchesOutOfRangeFail :
    memWords (machine [] [(10, 8)]).params ≤ (machine [] [(10, 8)]).ip.toNat ∧ (machine [] [(10, 8)]).run = .running ∧
    (machine [] [(10, 7)] [0, 0, 0, 0, 0, 0, 0, 0x28000021]).memRead 7 = some 0x28000021 ∧
    (Fields.ofWord 0x28000021).needImm = true ∧
    memWords (machine [] [(10, 7)]).params ≤ ((machine [] [(10, 7)]).ip + 1).toNat := by decide

theorem witness_FailuresArePrecise :
    ∃ t, step (machine [0xD4000100] [(1, 100)] [] [0x41, 0x42]) = .next t ∧ t.run = .failed .outOfRange ∧
      (machine [0xD4000100] [(1, 100)] [] [0x41, 0x42]).input = 0x41 :: t.input := ⟨_, rfl, rfl, rfl⟩

theorem witness_IllegalOperationExactlyDivideByZero :
    ∃ t, step (machine [0x58000021, 0] [(2, 7)]) = .next t ∧ t.run = .failed .illegalOperation := ⟨_, rfl, rfl⟩

theorem witness_InvalidBifExactlyIdOutOfRange :
    ∃ t, step (machine [0xF8000000, 1] []) = .next t ∧ t.run = .failed .invalidBif := ⟨_, rfl, rfl⟩

theorem witness_FirstFailureInPhaseOrder :
    ((machine [0] [(2, 9)]).advance 1).effB (.indirect 2) = none ∧
    ((machine [0] [(2, 8)]).advance 1).effB (.indirect 2) = some 0 ∧
    ((machine [0] [(2, 9)]).advance 1).effC (.indirect 2) = none ∧
    ((machine [0] [(2, 8)]).advance 1).effC (.indirect 2) = some 0 ∧
    ((machine [0] [(3, 1)]).advance 1).effC (.direct 3) = some 1 ∧
    (((machine [0] [(1, 9)]).advance 1).dst (.indirect 1)).writable (machine [0] [(1, 9)]).params = false := by decide

theorem witness_StepKeepsTheParameters : ∃ t, step (machine [0xA8000000, 4] []) = .next t := ⟨_, rfl⟩

theorem witness_StreamsOnlyMoveForward :
    ∃ t, step (machine [0xD0000100] [] [] [0x41, 0x42]) = .next t ∧ t.input = [0x42] := ⟨_, rfl, rfl⟩

theorem witness_IpAdvancesPastTheInstruction :
    (∃ t, exec (.brz (.immediate 4)) (machine [0] [(14, 0)]) = .next t) ∧
    (Instr.brz (.immediate 4)).wellFormed = true ∧
    (∀ c, Instr.brz (.immediate 4) = .inp c → (machine [0] [(14, 0)]).waiting = false) ∧
    (∀ c, Instr.brz (.immediate 4) ≠ .callBif c) ∧
    destOf (.brz (.immediate 4)) (machine [0] [(14, 0)]) ≠ some (.reg Config.regIp) ∧
    (machine [0] [(2, 3)]).reg 2 = 3 ∧ ∃ t, (machine [0xD8000000] []).fetch = .error t :=
  ⟨⟨_, rfl⟩, by decide, nofun, nofun, by decide, by decide, _, rfl⟩

theorem witness_MemoryPortReadsAndWritesOneWord :
    (8 : Word).toNat < memWords (machine [0] []).params ∧ memWords (machine [0] []).params ≤ (9 : Word).toNat ∧
    (7 : Word) ≠ 8 ∧ ¬ (4 * (8 : Word).toNat ≤ 31 ∧ 31 < 4 * (8 : Word).toNat + 4) := by decide

theorem witness_StoresAreSeenByTheNextFetch :
    ∃ t, (machine [0x12345678] []).memWrite 0 0x10000210 = some t ∧ (machine [0x12345678] []).ip = 0 ∧
      (machine [0x12345678] []).run = .running ∧
      decodeWords [0x10000210] = .ok (.move (.direct 1) (.direct 2), []) :=
  ⟨_, rfl, by decide, by decide, by decide⟩

theorem witness_RegisterWriteSetsOneSlot : (0 : Reg) ≠ 15 := by decide

theorem witness_OperandsResolveByTheirFlags : memWords (machine [0] []).params ≤ (9 : Word).toNat := by decide

theorem witness_MoveCopiesTheSource :
    ((machine [0] [(1, 8)]).advance 2).effC (.immediate 42) = some 42 ∧
    (((machine [0] [(1, 8)]).advance 2).dst (.indirect 1)).writable (machine [0] [(1, 8)]).params = true := by decide

theorem witness_MoveFailsOutOfRange :
    ((machine [0] []).advance 2).effC (.absolute 9) = none ∧
    (((machine [0] [(1, 9)]).advance 2).dst (.indirect 1)).writable (machine [0] [(1, 9)]).params = false := by decide

/-- The premise of the result statements of the three-operand instructions, with the last cell as destination. -/
theorem witness_Resolves :
    (machine [0] [(1, 8), (2, 7), (3, 2)]).Resolves (.indirect 1) (.direct 2) (.direct 3) 7 2 :=
  ⟨by decide, by decide, by decide⟩

theorem witness_AddWritesTheSum :
    (machine [0] [(1, 8), (2, 0xFFFFFFFF)]).Resolves (.indirect 1) (.direct 2) (.immediate 1) 0xFFFFFFFF 1 :=
  ⟨by decide, by decide, by decide⟩

theorem witness_SubWritesTheDifference :
    (machine [0] [(2, 9)]).Resolves (.direct 1) (.direct 2) (.direct 2) 9 9 ∧
    ((machine [0] [(2, 9)]).advance 1).dst (.direct 1) ≠ .reg Config.regFlags ∧
    (machine [0] [(2, 9)]).Resolves (.direct 14) (.direct 2) (.direct 2) 9 9 ∧
    ((machine [0] [(2, 9)]).advance 1).dst (.direct 14) = .reg Config.regFlags :=
  ⟨⟨by decide, by decide, by decide⟩, by decide, ⟨by decide, by decide, by decide⟩, by decide⟩

theorem witness_MulWritesTheLowProduct :
    (machine [0] [(5, 0x10000)]).Resolves (.direct 4) (.direct 5) (.direct 5) 0x10000 0x10000 :=
  ⟨by decide, by decide, by decide⟩

theorem witness_DivWritesTheFloorQuotient :
    (machine [0] [(2, 7)]).Resolves (.direct 1) (.direct 2) (.immediate 2) 7 2 ∧ (2 : Word) ≠ 0 :=
  ⟨⟨by decide, by decide, by decide⟩, by decide⟩

/-- The two sides of the wide-shift boundary. -/
theorem witness_ShrShiftsRight :
    (machine [0] [(2, 7)]).Resolves (.direct 1) (.direct 2) (.immediate 31) 7 31 ∧
    (machine [0] [(2, 7)]).Resolves (.direct 1) (.direct 2) (.immediate 32) 7 32 :=
  ⟨⟨by decide, by decide, by decide⟩, ⟨by decide, by decide, by decide⟩⟩

theorem witness_ShlShiftsLeft :
    (machine [0] [(2, 7)]).Resolves (.direct 1) (.direct 2) (.immediate 0) 7 0 ∧
    (machine [0] [(2, 7)]).Resolves (.direct 1) (.direct 2) (.immediate 0xFFFFFFFF) 7 0xFFFFFFFF :=
  ⟨⟨by decide, by decide, by decide⟩, ⟨by decide, by decide, by decide⟩⟩

theorem witness_NandAndXorAreBitwise :
    (machine [0] [(2, 7)]).Resolves (.direct 15) (.direct 2) (.direct 10) 7 1 ∧ (31 : Nat) < 32 :=
  ⟨⟨by decide, by decide, by decide⟩, by decide⟩

theorem witness_ArithmeticFailsOutOfRange :
    Instr.shl (.indirect 1) (.indirect 2) (.absolute 9)
      ∈ [Instr.add (.indirect 1) (.indirect 2) (.absolute 9), .sub (.indirect 1) (.indirect 2) (.absolute 9),
        .mul (.indirect 1) (.indirect 2) (.absolute 9), .shr (.indirect 1) (.indirect 2) (.absolute 9),
        .shl (.indirect 1) (.indirect 2) (.absolute 9)] ∧
    ((machine [0] [(2, 9)]).advance 2).effB (.indirect 2) = none ∧
    ((machine [0] []).advance 2).effC (.absolute 9) = none ∧
    (((machine [0] [(1, 9)]).advance 2).dst (.indirect 1)).writable (machine [0] [(1, 9)]).params = false := by decide

theorem witness_OnlySubUpdatesTheFlag :
    (∃ u t, ((machine [0] [(2, 9)]).advance 1).effB (.direct 2) = some 9 ∧
      ((machine [0] [(2, 9)]).advance 1).effC (.direct 2) = some 9 ∧
      ((machine [0] [(2, 9)]).advance 1).writeDst (((machine [0] [(2, 9)]).advance 1).dst (.direct 1)) (9 - 9) = some u ∧
      exec (.sub (.direct 1) (.direct 2) (.direct 2)) (machine [0] [(2, 9)]) = .next t) ∧
    (Instr.move (.direct 1) (.immediate 0)).mnemonic ≠ .sub ∧ (Instr.move (.direct 1) (.immediate 0)).mnemonic ≠ .callBif ∧
    (∃ t, exec (.move (.direct 1) (.immediate 0)) (machine [0] []) = .next t) ∧
    destOf (.move (.direct 1) (.immediate 0)) (machine [0] []) ≠ some (.reg Config.regFlags) :=
  ⟨⟨_, _, by decide, by decide, rfl, rfl⟩, by decide, by decide, ⟨_, rfl⟩, by decide⟩

theorem witness_ZeroFlagIsSticky :
    (∃ t, step (machine [0x30000221] [(2, 9), (14, 0)]) = .next t ∧ t.zeroFlag = true) ∧
    (machine [0x30000221] [(2, 9), (14, 0)]).run = .running ∧
    (machine [0x30000221] [(2, 9), (14, 0)]).zeroFlag = false ∧
    (∀ i, (machine [0x30000221] [(2, 9), (14, 0)]).fetch = .ok i → i.mnemonic ≠ .callBif ∧
      destOf i (machine [0x30000221] [(2, 9), (14, 0)]) ≠ some (.reg Config.regFlags)) ∧
    (machine [0x30000321] [(2, 9), (3, 1), (14, 2)]).zeroFlag = true := by
  refine ⟨⟨_, rfl, by decide⟩, by decide, by decide, fun i h => ?_, by decide⟩
  have e : (machine [0x30000221] [(2, 9), (14, 0)]).fetch = .ok (.sub (.direct 1) (.direct 2) (.direct 2)) := rfl
  rw [e] at h
  cases h
  decide

theorem witness_BrJumpsToTheTarget :
    ((machine [0] [(2, 8)]).advance 1).effC (.indirect 2) = some 0 ∧
    ((machine [0] []).advance 2).effC (.immediate 4) = some 4 := by decide

theorem witness_BrzBranchesOnZClear :
    ((machine [0] [(14, 0)]).advance 2).effC (.immediate 4) = some 4 ∧
    ((machine [0] [(14, 0)]).reg 14).getLsbD 1 = false := by decide

theorem witness_BrnzBranchesOnZSet :
    ((machine [0] [(14, 2)]).advance 2).effC (.immediate 4) = some 4 ∧
    ((machine [0] [(14, 2)]).reg 14).getLsbD 1 = true := by decide

theorem witness_BranchesResolveTheirTargetFirst :
    Instr.brz (.absolute 9) ∈ [Instr.br (.absolute 9), .brz (.absolute 9), .brnz (.absolute 9)] ∧
    ((machine [0] []).advance 2).effC (.absolute 9) = none := by decide

theorem witness_InStoresTheNextByte :
    ((machine [0] [] [] [0x41]).advance 2).dstC (.absolute 8) = some (.mem 8) ∧
    (Dest.mem 8).writable (machine [0] []).params = true ∧ (machine [0] [] [] [0x41]).input = [0x41] ∧
    (machine [0] []).endInput.input = [] ∧ (machine [0] []).endInput.inputEnded = true := by decide

theorem witness_InWaitsOrFails :
    (COperand.direct 1).isLocation = true ∧ (machine [0] []).input = [] ∧ (machine [0] []).inputEnded = false ∧
    ((machine [0] [] [] [0x41]).advance 2).dstC (.absolute 9) = some (.mem 9) ∧
    (Dest.mem 9).writable (machine [0] []).params = false ∧ (machine [0] [] [] [0x41]).input = [0x41] ∧
    ((machine [0] []).endInput.advance 2).dstC (.absolute 9) = some (.mem 9) ∧
    (machine [0] []).endInput.input = [] ∧ (machine [0] []).endInput.inputEnded = true := by decide

theorem witness_HostLiftsTheHoldOfIn :
    ((machine [0] []).advance 1).dstC (.direct 1) = some (.reg 1) ∧
    (Dest.reg 1).writable (machine [0] []).params = true ∧ (machine [0] []).waiting = true ∧
    (machine [0xD0000100] []).run = .running ∧ (machine [0xD0000100] []).fetch = .ok (.inp (.direct 1)) ∧
    (machine [0xD0000100] []).waiting = true := by decide

theorem witness_OutAppendsTheLowByte :
    ((machine [0] [(1, 0x141)]).advance 1).effC (.direct 1) = some 0x141 ∧
    ((machine [0] []).advance 2).effC (.absolute 9) = none := by decide

theorem witness_HelloWritesItsGreeting :
    ((machine [0] []).advance 2).effC (.immediate 0) = some 0 ∧ 1 ≤ (machine [0] []).params.bifCount := by decide

/-- The last id of a table of two: a function the spec says nothing about. -/
theorem witness_HandlersKeepTheirContract :
    ((withTwoBifs (machine [0] [])).advance 2).effC (.immediate 1) = some 1 ∧
    (1 : Word).toNat < (withTwoBifs (machine [0] [])).params.bifCount ∧
    memWords (withTwoBifs (machine [0] [])).params ≤ 36 / 4 ∧ (1 : Word) ≠ 0 ∧
    8 < memWords (withTwoBifs (machine [0] [])).params := by decide

theorem witness_BifFailsAboveTheTable :
    ((machine [0] []).advance 2).effC (.immediate 1) = some 1 ∧ (machine [0] []).params.bifCount ≤ (1 : Word).toNat ∧
    ((machine [0] []).advance 2).effC (.absolute 9) = none := by decide

theorem witness_FrameOfMoveAndArithmetic :
    (∃ t, exec (.add (.indirect 1) (.direct 2) (.immediate 1)) (machine [0] [(1, 8)]) = .next t) ∧
    (Instr.add (.indirect 1) (.direct 2) (.immediate 1)).mnemonic
      ∈ [Mnemonic.move, .add, .mul, .div, .shr, .shl, .nand, .xor] ∧
    destOf (.add (.indirect 1) (.direct 2) (.immediate 1)) (machine [0] [(1, 8)]) = some (.mem 8) ∧
    (Dest.mem 8).covers 31 = false ∧ (Dest.mem 8).covers 36 = false ∧ (Dest.mem 8).covers 35 = true :=
  ⟨⟨_, rfl⟩, by decide, by decide, by decide, by decide, by decide⟩

theorem witness_FrameOfSub :
    (∃ t, exec (.sub (.direct 1) (.direct 2) (.direct 2)) (machine [0] []) = .next t) ∧
    destOf (.sub (.direct 1) (.direct 2) (.direct 2)) (machine [0] []) = some (.reg 1) ∧
    (Dest.reg 1).covers 0 = false :=
  ⟨⟨_, rfl⟩, by decide, by decide⟩

theorem witness_FrameOfHaltBranchesAndOut :
    (∃ t, exec (.out (.direct 1)) (machine [0] []) = .next t) ∧ (∃ t, exec .halt (machine [0] []) = .next t) ∧
    (Instr.out (.direct 1)).mnemonic ∈ [Mnemonic.halt, .br, .brz, .brnz, .out] ∧ Instr.halt.mnemonic ≠ .out :=
  ⟨⟨_, rfl⟩, ⟨_, rfl⟩, by decide, by decide⟩

theorem witness_FrameOfIn :
    (∃ t, exec (.inp (.absolute 8)) (machine [0] [] [] [0x41]) = .next t) ∧
    destOf (.inp (.absolute 8)) (machine [0] [] [] [0x41]) = some (.mem 8) ∧ (Dest.mem 8).covers 31 = false :=
  ⟨⟨_, rfl⟩, by decide, by decide⟩

theorem witness_StatusesOfTerminalStates : statusCode .failure = statusCode .failure := rfl

end Sys2Proof.Tests
end

section
/-! The encoder sees its register indices modulo 16 only (rule R61). -/

namespace Sys2Proof.Machine

/-- A 4-bit field keeps a number's residue modulo 16 and nothing else. -/
theorem ofNat_four_eq_of_modEq {x y : Nat} (h : x ≡ y [MOD 16]) : BitVec.ofNat 4 x = BitVec.ofNat 4 y :=
  BitVec.eq_of_toNat_eq (by simpa [Nat.ModEq] using h)

/-- Register indices that agree modulo 16, field by field, are encoded alike. -/
theorem encodeWord_eq_of_modEq {a a' b b' c c' : Nat} (op m : Nat) (ha : a ≡ a' [MOD 16]) (hb : b ≡ b' [MOD 16])
    (hc : c ≡ c' [MOD 16]) : encodeWord op m a b c = encodeWord op m a' b' c' := by
  simp only [encodeWord, ofNat_four_eq_of_modEq ha, ofNat_four_eq_of_modEq hb, ofNat_four_eq_of_modEq hc]

/-- Settles O2: every index agrees with its residue, and 17 agrees with 1, modulo 16. -/
theorem registerIndicesAreMasked : Obligations.RegisterIndicesAreMasked := by
  unfold Obligations.RegisterIndicesAreMasked
  have residue (n : Nat) : n ≡ n % 16 [MOD 16] := (Nat.mod_modEq n 16).symm
  have seventeen : 17 ≡ 1 [MOD 16] := by decide
  refine ⟨fun op m a b c => ?_, fun op m x y => ⟨?_, ?_, ?_⟩⟩
  · exact encodeWord_eq_of_modEq op m (residue a) (residue b) (residue c)
  · exact encodeWord_eq_of_modEq op m seventeen rfl rfl
  · exact encodeWord_eq_of_modEq op m rfl seventeen rfl
  · exact encodeWord_eq_of_modEq op m rfl rfl seventeen

end Sys2Proof.Machine
end

section
/-! The decoder reads the four fields and the mode nibble, and nothing between (rule R71). -/

namespace Sys2Proof

/-- A 4-bit field is read by shift and mask. -/
theorem toNat_extractLsb'_four (w : Word) (lo : Nat) : (w.extractLsb' lo 4).toNat = w.toNat >>> lo &&& 0xF := by
  rw [BitVec.extractLsb'_toNat, ← Nat.and_two_pow_sub_one_eq_mod]

/-- A mask that is all ones on a 4-bit field leaves that field alone. -/
theorem extractLsb'_and_of_mask_ones {m : Word} {lo : Nat} (hm : m.extractLsb' lo 4 = BitVec.allOnes 4) (w : Word) :
    (w &&& m).extractLsb' lo 4 = w.extractLsb' lo 4 := by
  rw [BitVec.extractLsb'_and, hm, BitVec.and_allOnes]

/-- A mask with a one at a bit leaves that bit alone. -/
theorem getLsbD_and_of_mask_bit {m : Word} {n : Nat} (hm : m.getLsbD n = true) (w : Word) :
    (w &&& m).getLsbD n = w.getLsbD n := by
  rw [BitVec.getLsbD_and, hm, Bool.and_true]

/-- Clearing bits 23:12 changes no output of the decoder. -/
theorem Fields.ofWord_and_mask (w : Word) : Fields.ofWord (w &&& 0xFF000FFF) = Fields.ofWord w := by
  have field {lo : Nat} (hm : (0xFF000FFF : Word).extractLsb' lo 4 = BitVec.allOnes 4) :=
    extractLsb'_and_of_mask_ones hm w
  have flag {n : Nat} (hm : (0xFF000FFF : Word).getLsbD n = true) := getLsbD_and_of_mask_bit hm w
  simp only [Fields.ofWord, Fields.mk.injEq]
  exact ⟨field (by decide), flag (by decide), flag (by decide), flag (by decide), flag (by decide),
    field (by decide), field (by decide), field (by decide)⟩

end Sys2Proof

namespace Sys2Proof.Machine

/-- Settles O1: each field is a shift and a mask, and two words alike outside bits 23:12 decode as the one masked word. -/
theorem fieldsAreTheRulesBits : Obligations.FieldsAreTheRulesBits := by
  unfold Obligations.FieldsAreTheRulesBits
  intro w
  refine ⟨toNat_extractLsb'_four w 28, toNat_extractLsb'_four w 8, toNat_extractLsb'_four w 4,
    toNat_extractLsb'_four w 0, fun w' h => ?_⟩
  rw [← Fields.ofWord_and_mask w, h, Fields.ofWord_and_mask]

end Sys2Proof.Machine
end

section
/-! Operand resolution read off the decoded flags (rules R81 to R85). -/

namespace Sys2Proof.Machine

/-- `EffB(d)` by the slot's dereference flag (rule R82). -/
theorem State.effB_operandOf (s : State) (deref : Bool) (r : Reg) :
    s.effB (operandOf deref r) = if deref = true then s.memRead (s.reg r) else some (s.reg r) := by
  cases deref <;> rfl

/-- `DstA(d)` and `DstB(d)` by the slot's dereference flag (rule R84). -/
theorem State.dst_operandOf (s : State) (deref : Bool) (r : Reg) :
    s.dst (operandOf deref r) = if deref = true then .mem (s.reg r) else .reg r := by
  cases deref <;> rfl

/-- The C slot dereferences exactly when its flag says so (rule R58). -/
theorem deref_cOperandOf (d : Fields) (imm : Word) : (cOperandOf d imm).deref = d.regcDeref := by
  unfold cOperandOf
  cases d.immediate <;> cases d.regcDeref <;> rfl

/-- `RawC(d, imm)` by the `immediate` flag (rule R81). -/
theorem State.rawC_cOperandOf (s : State) (d : Fields) (imm : Word) :
    s.rawC (cOperandOf d imm) = if d.immediate = true then imm else s.reg d.regc := by
  unfold cOperandOf
  cases d.immediate <;> cases d.regcDeref <;> rfl

/-- `EffC(d, imm)` by the `immediate` and dereference flags (rule R83). -/
theorem State.effC_cOperandOf (s : State) (d : Fields) (imm : Word) :
    s.effC (cOperandOf d imm)
      = if d.regcDeref = true then s.memRead (if d.immediate = true then imm else s.reg d.regc)
        else some (if d.immediate = true then imm else s.reg d.regc) := by
  rw [State.effC, deref_cOperandOf, State.rawC_cOperandOf]

/-- `DstC(d, imm)` by the `immediate` and dereference flags (rule R85); a literal is no location (decision D11). -/
theorem State.dstC_cOperandOf (s : State) (d : Fields) (imm : Word) :
    s.dstC (cOperandOf d imm)
      = if d.immediate = true then (if d.regcDeref = true then some (.mem imm) else none)
        else some (if d.regcDeref = true then .mem (s.reg d.regc) else .reg d.regc) := by
  unfold cOperandOf
  cases d.immediate <;> cases d.regcDeref <;> rfl

/-- There is no cell at or above `MEM_WORDS` to read (rule R33). -/
theorem State.memRead_eq_none_of_memWords_le (s : State) {a : Word} (h : memWords s.params ≤ a.toNat) :
    s.memRead a = none :=
  s.memRead_illegal (by rw [legalAddr_eq, decide_eq_false (Nat.not_lt.mpr h)])

/-- Settles O31, by the flags of each slot: two cases for A and B, four for C. -/
theorem operandsResolveByTheirFlags : Obligations.OperandsResolveByTheirFlags := by
  unfold Obligations.OperandsResolveByTheirFlags
  intro s d imm
  exact ⟨s.effB_operandOf d.regbDeref d.regb, s.effC_cOperandOf d imm, s.dst_operandOf d.regaDeref d.rega,
    s.dst_operandOf d.regbDeref d.regb, s.dstC_cOperandOf d imm, fun _ h => s.memRead_eq_none_of_memWords_le h⟩

end Sys2Proof.Machine
end

section
/-! The sequencer: terminal states, an illegal decode, the flag update and the advance of IP (rules R96, R99, R104, R107). -/

namespace Sys2Proof.Machine

/-! ### Steps that execute nothing -/

/-- Settles O16, by the two terminal run states. -/
theorem terminalStatesStay : Obligations.TerminalStatesStay := by
  unfold Obligations.TerminalStatesStay
  intro s h
  cases hr : s.run with
  | running => exact absurd hr h
  | halted | failed k => simp only [step, hr]

/-- A running machine whose fetch fails steps to the state the fetch answers. -/
theorem step_of_fetch_error {s t : State} (hr : s.run = .running) (hf : s.fetch = .error t) : step s = .next t := by
  simp only [step, hr, hf]

/-- An illegal decode ends the fetch after the one IP increment (rule R99). -/
theorem State.fetch_of_illegal {s : State} {w : Word} (hw : s.memRead s.ip = some w)
    (hi : (Fields.ofWord w).illegal = true) : s.fetch = .error ((s.advance 1).fail .illegalInstruction) := by
  simp only [State.fetch, hw, hi, if_true]

/-- A failure raised after IP has advanced `n` words has changed IP and `RUN` alone (rule R109). -/
theorem State.failsAt_fail_advance (s : State) (n : Nat) (k : FailKind) :
    State.FailsAt s ((s.advance n).fail k) k (s.ip + BitVec.ofNat 32 n) :=
  ⟨rfl, s.ip_advance n, fun _ hr => s.reg_advance_other n hr, rfl, s.sameOutside_refl⟩

/-- Settles O19: the fetch of an illegal word fails after one IP increment. -/
theorem illegalDecodeFails : Obligations.IllegalDecodeFails := by
  unfold Obligations.IllegalDecodeFails
  intro s w hr hw hi
  exact ⟨_, step_of_fetch_error hr (State.fetch_of_illegal hw hi), s.failsAt_fail_advance 1 .illegalInstruction⟩

/-! ### What an instruction leaves in a register it does not name -/

/-- A write-back and the flag update after it leave every register but FLAGS and the destination. -/
theorem State.reg_finishWrite_flagUpdate (s : State) {d : Dest} (v x : Word) {r : Reg} (hr : r ≠ Config.regFlags)
    (hd : d ≠ .reg r) : (s.finishWrite d v fun t => t.flagUpdate x).reg r = s.reg r :=
  (s.finishWrite_frame d v (some Config.regFlags) (State.flagUpdate_frame x)).1 r (fun h => hr (Option.some.inj h)) hd

/-- A write-back with nothing after it leaves every register but the destination. -/
theorem State.reg_finishWrite_id (s : State) {d : Dest} (v : Word) {r : Reg} (hd : d ≠ .reg r) :
    (s.finishWrite d v id).reg r = s.reg r :=
  (s.finishWrite_frame d v none fun u => ⟨fun _ _ => rfl, rfl, u.sameOutside_refl⟩).1 r nofun hd

/-- Taking a byte from `IN` leaves the register file. -/
theorem State.reg_of_inByte {s t : State} {v : Word} (h : s.inByte = some (v, t)) (r : Reg) : t.reg r = s.reg r := by
  rcases State.inByte_cases h with ⟨_, _, -, -, rfl⟩ | ⟨-, -, -, rfl⟩ <;> rfl

/-- A register that is not the destination, nor FLAGS in a `sub`, is after an instruction other than `bif` what the
fetches left in it, unless the instruction waited or jumped. -/
theorem ExecEffect.reg_of_not_dest {i : Instr} {s t : State} {r : Reg} (h : ExecEffect i s t)
    (hbif : i.mnemonic ≠ .callBif) (hsub : i.mnemonic = .sub → r ≠ Config.regFlags)
    (hd : destOf i s ≠ some (.reg r)) :
    t.reg r = (s.fetched i).reg r ∨ ((∃ c, i = .inp c) ∧ s.waiting = true ∧ t = s) ∨
    ∃ c v, (s.fetched i).effC c = some v ∧ t = (s.fetched i).setIp v ∧
      (i = .br c ∨ (i = .brz c ∧ s.zeroFlag = false) ∨ (i = .brnz c ∧ s.zeroFlag = true)) := by
  have dest_ne {d : Dest} (hdest : destOf i s = some d) : d ≠ .reg r := fun e => hd (e ▸ hdest)
  cases h with
  | halts | outOfRange | reserved | dividesByZero | aboveTheTable | fallsThrough | emits => exact .inl rfl
  | jumps c v hv hb => exact .inr (.inr ⟨c, v, hv, rfl, hb⟩)
  | waits c hi hw => exact .inr (.inl ⟨⟨c, hi⟩, hw, rfl⟩)
  | calls c v hi => exact absurd (congrArg Instr.mnemonic hi) hbif
  | reads c d v s2 _ hdest hin =>
    exact .inl ((s2.reg_finishWrite_id v (dest_ne hdest)).trans (State.reg_of_inByte hin r))
  | writes d v hdest => exact .inl (State.reg_finishWrite_id _ v (dest_ne hdest))
  | subtracts d v hdest hm => exact .inl (State.reg_finishWrite_flagUpdate _ v v (hsub hm) (dest_ne hdest))

/-! ### The flag update -/

/-- An arithmetic or logic step whose sources, operation and write-back succeed ends in what follows the write. -/
theorem aluStep_of_writeDst {op : Word → Word → Except FailKind Word} (after : Word → State → State)
    {dst b : Operand} {c : COperand} {s u : State} {x y r : Word}
    (hb : (s.advance (1 + c.extraWords)).effB b = some x) (hc : (s.advance (1 + c.extraWords)).effC c = some y)
    (hop : op x y = .ok r)
    (hw : (s.advance (1 + c.extraWords)).writeDst ((s.advance (1 + c.extraWords)).dst dst) r = some u) :
    aluStep op after dst b c s = .next (after r u) := by
  simp only [aluStep, hb, hc, hop, State.finishWrite, hw]

/-- FLAGS after the flag update (rule R104). -/
theorem State.flags_flagUpdate (u : State) (x : Word) :
    (u.flagUpdate x).flags = if x = 0 then u.flags ||| Config.flagZ else u.flags := by
  unfold State.flagUpdate
  split
  · exact u.flags_setZero
  · rfl

/-- Settles O43: the first part by the flag update after the write, the second because no other effect of an
instruction than its write, a `sub`'s update or a call reaches FLAGS. -/
theorem onlySubUpdatesTheFlag : Obligations.OnlySubUpdatesTheFlag := by
  unfold Obligations.OnlySubUpdatesTheFlag
  refine ⟨fun dst b c s u t x y hb hc hw h => ?_, fun i s t hsub hbif h hd => ?_⟩
  · have written : exec (.sub dst b c) s = .next (u.flagUpdate (x - y)) :=
      (exec_sub dst b c s).trans (aluStep_of_writeDst _ hb hc rfl hw)
    obtain rfl := next_inj (written.symm.trans h)
    obtain ⟨hreg, hmem, -⟩ := State.flagUpdate_frame (x - y) u
    exact ⟨u.flags_flagUpdate (x - y), fun r hr => hreg r fun e => hr (Option.some.inj e), hmem⟩
  · have notIp : Config.regFlags ≠ Config.regIp := by decide
    rcases (exec_effect h).reg_of_not_dest hbif (fun hm => absurd hm hsub) hd with e | ⟨-, -, rfl⟩ | ⟨_, v, -, rfl, -⟩
    · exact e.trans (s.flags_advance i.length)
    · rfl
    · exact (State.reg_setIp_other _ v notIp).trans (s.flags_advance i.length)

/-! ### The advance of IP -/

/-- A C operand's instruction is two words long exactly when the operand has an Immediate Word (rule R50). -/
theorem one_add_extraWords (c : COperand) : 1 + c.extraWords = if c.immediateWord.isSome then 2 else 1 := by
  cases c <;> rfl

/-- A well-formed instruction is two words long exactly when it has an Immediate Word (rule R59). -/
theorem length_of_wellFormed {i : Instr} (h : i.wellFormed = true) :
    i.length = if (i.slotC.bind COperand.immediateWord).isSome then 2 else 1 := by
  cases i with
  | halt => rfl
  | inp c => exact (if_pos h).trans (one_add_extraWords c)
  | move _ c | add _ _ c | sub _ _ c | mul _ _ c | div _ _ c | shr _ _ c | shl _ _ c | nand _ _ c | xor _ _ c
  | br c | brz c | brnz c | out c | callBif c => exact one_add_extraWords c

/-- IP after the fetches of a well-formed instruction (rule R107). -/
theorem State.ip_fetched (s : State) {i : Instr} (h : i.wellFormed = true) :
    (s.fetched i).ip = s.ip + (if (i.slotC.bind COperand.immediateWord).isSome then 2 else 1) := by
  rw [State.fetched, State.ip_advance, length_of_wellFormed h]
  split <;> rfl

/-- A fetch that fails has moved IP by at most one word (rule R109). -/
theorem State.ip_of_fetch_error {s t : State} (h : s.fetch = .error t) : t.ip = s.ip ∨ t.ip = s.ip + 1 := by
  rcases State.fetch_error h with rfl | rfl | rfl
  · exact .inl rfl
  · exact .inr (s.ip_advance 1)
  · exact .inr (s.ip_advance 1)

/-- An `add` of a register and a literal into a register, neither of them IP: the sum is there and IP is two words on. -/
theorem exec_add_direct_immediate (s : State) {d : Reg} (b : Reg) (v : Word) (hd : d ≠ Config.regIp)
    (hb : b ≠ Config.regIp) : ∃ t, exec (.add (.direct d) (.direct b) (.immediate v)) s = .next t ∧
      t.reg d = s.reg b + v ∧ t.ip = s.ip + 2 := by
  refine ⟨(s.advance 2).setReg d ((s.advance 2).reg b + v),
    (exec_add _ _ _ s).trans (aluStep_of_writeDst keepFlags rfl rfl rfl rfl), ?_, ?_⟩
  · rw [State.reg_setReg_same, s.reg_advance_other 2 hb]
  · exact (State.ip_setReg_other _ _ hd).trans (s.ip_advance 2)

/-- Settles O27: IP is a register that the instruction does not name, so it is what the fetches left or the target of a
jump; the example is one `add`. -/
theorem ipAdvancesPastTheInstruction : Obligations.IpAdvancesPastTheInstruction := by
  unfold Obligations.IpAdvancesPastTheInstruction
  refine ⟨fun i s t hwf h hwait hbif hd => ?_, fun s t => State.ip_of_fetch_error, fun s hs => ?_⟩
  · have notBif : i.mnemonic ≠ .callBif := by
      cases i with
      | callBif c => exact absurd rfl (hbif c)
      | _ => nofun
    have notFlags : Config.regIp ≠ Config.regFlags := by decide
    rcases (exec_effect h).reg_of_not_dest notBif (fun _ => notFlags) hd with
      e | ⟨⟨c, hi⟩, hw, -⟩ | ⟨c, v, hv, rfl, hb⟩
    · exact .inl (e.trans (s.ip_fetched hwf))
    · exact absurd hw (by rw [hwait c hi]; decide)
    · exact .inr ⟨c, v, hv, State.ip_setIp _ v, hb⟩
  · obtain ⟨t, ht, hsum, hip⟩ := exec_add_direct_immediate s (d := 1) 2 5 (by decide) (by decide)
    exact ⟨t, ht, by rw [hsum, hs]; decide, hip⟩

end Sys2Proof.Machine
end

section
/-! The run state that an instruction leaves, and division by zero (rule R167). -/

namespace Sys2Proof.Machine

/-! ### What the shared operations do to `RUN` -/

/-- A write-back that succeeds leaves `RUN`. -/
theorem State.run_of_writeDst {s t : State} {d : Dest} {v : Word} (h : s.writeDst d v = some t) : t.run = s.run := by
  rcases State.writeDst_cases h with ⟨_, -, rfl⟩ | ⟨_, -, -, rfl⟩ <;> rfl

/-- The end of a step leaves `RUN`, or fails with `OutOfRange`, where what follows the write leaves `RUN`. -/
theorem State.run_finishWrite_cases (s : State) (d : Dest) (v : Word) {after : State → State}
    (ha : ∀ u, (after u).run = u.run) :
    (s.finishWrite d v after).run = s.run ∨ (s.finishWrite d v after).run = .failed .outOfRange := by
  rcases s.finishWrite_cases d v after with ⟨t, ht, e⟩ | ⟨-, e⟩
  · exact .inl (by rw [e, ha, State.run_of_writeDst ht])
  · exact .inr (by rw [e, State.fail_run])

/-- The flag update leaves `RUN`. -/
@[simp] theorem State.flagUpdate_run (s : State) (x : Word) : (s.flagUpdate x).run = s.run := by
  unfold State.flagUpdate
  split <;> rfl

/-- Taking a byte from `IN` leaves `RUN`. -/
theorem State.run_of_inByte {s t : State} {v : Word} (h : s.inByte = some (v, t)) : t.run = s.run := by
  rcases State.inByte_cases h with ⟨_, _, -, -, rfl⟩ | ⟨-, -, -, rfl⟩ <;> rfl

/-- A built-in function leaves `RUN` (rule R143). -/
@[simp] theorem State.bifCall_run (s : State) (id : Nat) : (s.bifCall id).run = s.run := by
  unfold State.bifCall
  split <;> rfl

/-- The fetches of an instruction leave `RUN`. -/
@[simp] theorem State.fetched_run (s : State) (i : Instr) : (s.fetched i).run = s.run := rfl

/-! ### `IllegalOperation` -/

/-- A fetch never fails with `IllegalOperation`. -/
theorem State.fetch_error_run_ne_illegalOperation {s t : State} (h : s.fetch = .error t) :
    t.run ≠ .failed .illegalOperation := by
  rcases State.fetch_error h with rfl | rfl | rfl <;> simp

/-- An instruction that enters `Failed(IllegalOperation)` is a `div` with a readable B and a zero C. -/
theorem ExecEffect.div_by_zero_of_illegalOperation {i : Instr} {s t : State} (h : ExecEffect i s t)
    (hs : s.run = .running) (ht : t.run = .failed .illegalOperation) :
    ∃ dst b c x, i = .div dst b c ∧ (s.fetched i).effB b = some x ∧ (s.fetched i).effC c = some 0 := by
  have still_running {u : State} (hu : u.run = s.run) : u.run ≠ .failed .illegalOperation := by simp [hu, hs]
  have write_back {u : State} (hu : u.run = s.run) {d : Dest} {v : Word} {after : State → State}
      (ha : ∀ w, (after w).run = w.run) : (u.finishWrite d v after).run ≠ .failed .illegalOperation := by
    rcases u.run_finishWrite_cases d v ha with e | e
    · exact still_running (e.trans hu)
    · simp [e]
  cases h with
  | dividesByZero dst b c x hi hb hc => exact ⟨dst, b, c, x, hi, hb, hc⟩
  | halts | outOfRange | reserved | aboveTheTable => cases ht
  | jumps | fallsThrough | emits | waits => exact absurd ht (still_running rfl)
  | calls c v => exact absurd ht (still_running (State.bifCall_run _ _))
  | reads c d v s2 _ _ hin =>
    exact absurd ht (write_back ((State.run_of_inByte hin).trans (s.fetched_run i)) fun _ => rfl)
  | writes d v => exact absurd ht (write_back (s.fetched_run i) fun _ => rfl)
  | subtracts d v => exact absurd ht (write_back (s.fetched_run i) fun w => w.flagUpdate_run v)

/-- `div` with a readable B and a zero C fails before its destination is looked at (rules R124, R171). -/
theorem exec_div_zero {dst b : Operand} {c : COperand} {s : State} {x : Word}
    (hb : (s.advance (1 + c.extraWords)).effB b = some x) (hc : (s.advance (1 + c.extraWords)).effC c = some 0) :
    exec (.div dst b c) s = .next ((s.advance (1 + c.extraWords)).fail .illegalOperation) := by
  simp only [exec_div, aluStep, hb, hc, aluDiv, if_true]

/-- A running machine whose fetch succeeds executes the instruction fetched. -/
theorem step_of_fetch_ok {s : State} {i : Instr} (hr : s.run = .running) (hf : s.fetch = .ok i) :
    step s = exec i s := by
  simp only [step, hr, hf]

/-- Settles O22: no fetch and, of all the effects of an instruction, the zero divisor alone ends in `IllegalOperation`;
and `div` meets a zero divisor right after both sources are read. -/
theorem illegalOperationExactlyDivideByZero : Obligations.IllegalOperationExactlyDivideByZero := by
  unfold Obligations.IllegalOperationExactlyDivideByZero
  refine ⟨fun s t hr h => ⟨fun ht => ?_, ?_⟩, rfl⟩
  · rcases step_effect h with ⟨hn, -⟩ | ⟨-, hf⟩ | ⟨-, i, hf, he⟩
    · exact absurd hr hn
    · exact absurd ht (State.fetch_error_run_ne_illegalOperation hf)
    · obtain ⟨dst, b, c, x, rfl, hb, hc⟩ := he.div_by_zero_of_illegalOperation hr ht
      exact ⟨dst, b, c, x, hf, hb, hc⟩
  · rintro ⟨dst, b, c, x, hf, hb, hc⟩
    obtain rfl := next_inj ((exec_div_zero hb hc).symm.trans ((step_of_fetch_ok hr hf).symm.trans h))
    rfl

end Sys2Proof.Machine
end

section
/-! The state that `Reset` of an image leaves (rule R185). -/

namespace Sys2Proof.Machine

/-- A launch that gives a state loads the image's words, which with the stack area fit the address space, under a Bif
Table that is not empty (rules R31, R144, R151). -/
theorem State.launch_eq_some_iff {l : Launch} {image : List Byte} {s : State} :
    State.launch l image = some s ↔ ∃ ws, imageWords image = some ws ∧
      (ws.length + l.stackReserve ≤ Config.maxMemWords ∧ 1 ≤ l.bifCount) ∧ State.launchWords l ws = s := by
  unfold State.launch
  cases imageWords image <;> simp

/-- The register file after reset: SP is `PROG_LEN` as far as a register holds it, IP is 0, and the others hold what the
host chose (rule R28). -/
theorem State.launchWords_reg (l : Launch) (ws : List Word) (r : Reg) :
    (State.launchWords l ws).reg r = if Config.regSp = r then BitVec.ofNat 32 ws.length
      else if Config.regIp = r then 0 else l.resetReg[r.toNat]'r.isLt := by
  simp only [State.launchWords, State.reg, Vector.getElem_set, BitVec.toNat_inj]

/-- IP is 0 after reset. -/
@[simp] theorem State.launchWords_ip (l : Launch) (ws : List Word) : (State.launchWords l ws).ip = 0 := by
  rw [State.ip, State.launchWords_reg, if_neg (by decide), if_pos rfl]

/-- SP is `PROG_LEN` after reset where a register can hold it. -/
theorem State.toNat_launchWords_regSp (l : Launch) {ws : List Word} (h : ws.length < 2 ^ 32) :
    ((State.launchWords l ws).reg Config.regSp).toNat = ws.length := by
  rw [State.launchWords_reg, if_pos rfl, BitVec.toNat_ofNat, Nat.mod_eq_of_lt h]

/-- Every register but IP and SP holds after reset what the host chose. -/
theorem State.launchWords_reg_other (l : Launch) (ws : List Word) {r : Reg} (hip : r ≠ Config.regIp)
    (hsp : r ≠ Config.regSp) : (State.launchWords l ws).reg r = l.resetReg[r.toNat]'r.isLt := by
  rw [State.launchWords_reg, if_neg hsp.symm, if_neg hip.symm]

/-- The cells below `PROG_LEN` hold the image's words, whatever the host leaves in the stack area above them. -/
theorem State.launchWords_readWord (l : Launch) (ws : List Word) {a : Nat} (ha : a < ws.length) :
    Memory.readWord (State.launchWords l ws).mem a = ws.getD a 0 := by
  have written : 0 ≤ a ∧ a < 0 + (ws ++ l.resetMem.take l.stackReserve).length := by
    rw [List.length_append]; omega
  calc Memory.readWord (State.launchWords l ws).mem a
      = (ws ++ l.resetMem.take l.stackReserve).getD a 0 := by
        rw [State.launchWords, Memory.readWord_writeWords, if_pos written, Nat.sub_zero]
    _ = ws.getD a 0 := List.getD_append _ _ _ _ ha

/-- Settles O9: the launch loads the image's words, each of which is its four bytes, and the register file differs from
the host's choice in IP and SP alone. -/
theorem resetLoadsTheImage : Obligations.ResetLoadsTheImage := by
  unfold Obligations.ResetLoadsTheImage
  intro l image s h
  obtain ⟨ws, hws, -, rfl⟩ := State.launch_eq_some_iff.mp h
  obtain ⟨hlen, hbytes⟩ := (imageWords_spec image).1 ws hws
  have cells (a : Nat) (ha : a < ws.length) := (State.launchWords_readWord l ws ha).trans (hbytes a ha)
  exact ⟨hlen, rfl, rfl, rfl, rfl, rfl, cells, State.launchWords_ip l ws,
    State.toNat_launchWords_regSp l, fun _ hip hsp => State.launchWords_reg_other l ws hip hsp, rfl, rfl, rfl, rfl⟩

end Sys2Proof.Machine
end

section
/-! The codec's round trips, on fields, words, instructions and programs (rules R59, R63, R67, R71 to R77, R158). -/

namespace Sys2Proof

/-! ### Fields and words -/

/-- The encoder masks the mode nibble to its four bits (rule R61). -/
theorem encodeWord_ofNat_modes (op m a b c : Nat) :
    encodeWord op (BitVec.ofNat 4 m).toNat a b c = encodeWord op m a b c := by
  simp only [encodeWord, BitVec.ofNat_toNat, BitVec.setWidth_eq]

/-- The bits of the mode nibble: the flags A, B, C and immediate, lowest first (decision D3). -/
theorem Fields.modes_getLsbD (d : Fields) :
    (BitVec.ofNat 4 d.modes).getLsbD 0 = d.regaDeref ∧ (BitVec.ofNat 4 d.modes).getLsbD 1 = d.regbDeref ∧
    (BitVec.ofNat 4 d.modes).getLsbD 2 = d.regcDeref ∧ (BitVec.ofNat 4 d.modes).getLsbD 3 = d.immediate := by
  simp only [modes_eq_append, BitVec.getLsbD_append, BitVec.getLsbD_ofBool]
  simp

/-- The bits of the word of a Decoded Instruction (rules R51, R60). -/
theorem Fields.toWord_getLsbD (d : Fields) (n : Nat) :
    d.toWord.getLsbD n
      = if n < 4 then d.rega.getLsbD n else if n < 8 then d.regb.getLsbD (n - 4)
        else if n < 12 then d.regc.getLsbD (n - 8) else if n < 24 then false
        else if n < 28 then (BitVec.ofNat 4 d.modes).getLsbD (n - 24)
        else if n < 32 then d.opcode.getLsbD (n - 28) else false := by
  rw [Fields.toWord, ← encodeWord_ofNat_modes, encodeWord_getLsbD]

/-- Decoding the word of a record of fields gives the record back (rule R73). -/
theorem Fields.ofWord_toWord (d : Fields) : Fields.ofWord d.toWord = d := by
  obtain ⟨modeA, modeB, modeC, modeImm⟩ := d.modes_getLsbD
  have opcode : d.toWord.extractLsb' 28 4 = d.opcode :=
    extractLsb'_eq_of_getLsbD fun i hi => by grind [Fields.toWord_getLsbD]
  have regc : d.toWord.extractLsb' 8 4 = d.regc :=
    extractLsb'_eq_of_getLsbD fun i hi => by grind [Fields.toWord_getLsbD]
  have regb : d.toWord.extractLsb' 4 4 = d.regb :=
    extractLsb'_eq_of_getLsbD fun i hi => by grind [Fields.toWord_getLsbD]
  have rega : d.toWord.extractLsb' 0 4 = d.rega :=
    extractLsb'_eq_of_getLsbD fun i hi => by grind [Fields.toWord_getLsbD]
  simp only [Fields.ofWord, opcode, regc, regb, rega, (d.toWord_getLsbD Config.modeA).trans modeA,
    (d.toWord_getLsbD Config.modeB).trans modeB, (d.toWord_getLsbD Config.modeC).trans modeC,
    (d.toWord_getLsbD Config.modeImm).trans modeImm]

/-- The mask of a word's used bits (rule R51): bits 23:12 are not among them. -/
theorem mask_getLsbD {n : Nat} (h : n < 32) :
    (0xFF000FFF : Word).getLsbD n = !(decide (12 ≤ n) && decide (n < 24)) := by
  revert n
  decide

/-- Encoding the fields of a word gives the word without its unused bits (rule R73). -/
theorem Fields.toWord_ofWord (w : Word) : (Fields.ofWord w).toWord = w &&& 0xFF000FFF := by
  obtain ⟨modeA, modeB, modeC, modeImm⟩ := (Fields.ofWord w).modes_getLsbD
  apply BitVec.eq_of_getLsbD_eq
  intro n hn
  rw [Fields.toWord_getLsbD, BitVec.getLsbD_and, mask_getLsbD hn]
  by_cases mode : 24 ≤ n ∧ n < 28
  · obtain rfl | rfl | rfl | rfl : n = Config.modeA ∨ n = Config.modeB ∨ n = Config.modeC ∨ n = Config.modeImm := by
      simp only [Config.modeA, Config.modeB, Config.modeC, Config.modeImm]; omega
    · exact modeA.trans (Bool.and_true _).symm
    · exact modeB.trans (Bool.and_true _).symm
    · exact modeC.trans (Bool.and_true _).symm
    · exact modeImm.trans (Bool.and_true _).symm
  · simp only [Fields.ofWord, BitVec.getLsbD_extractLsb']
    grind

/-- A bit of a word is read by shift and mask. -/
theorem getLsbD_eq_true_iff (w : Word) (n : Nat) : w.getLsbD n = true ↔ w.toNat >>> n &&& 1 = 1 := by
  rw [← BitVec.testBit_toNat, Nat.testBit, Nat.and_comm 1, Nat.and_one_is_mod, bne_iff_ne]
  omega

/-- Settles O3, bit by bit: a word is its four fields, its mode nibble and its unused bits. -/
theorem codecRoundTrips : Obligations.CodecRoundTrips := by
  unfold Obligations.CodecRoundTrips
  exact ⟨Fields.ofWord_toWord, Fields.toWord_ofWord, fun w =>
    ⟨getLsbD_eq_true_iff w 24, getLsbD_eq_true_iff w 25, getLsbD_eq_true_iff w 26, getLsbD_eq_true_iff w 27⟩⟩

/-! ### Instructions and words -/

/-- A reserved Decoded Instruction is no instruction (rule R77). -/
theorem Fields.instr_of_reserved {d : Fields} (h : d.reserved = true) (imm : Word) : d.instr imm = none := by
  unfold Fields.instr
  split
  · rfl
  · rw [if_pos h]

/-- What a Decoded Instruction stands for is well formed, and the decode is not reserved (rules R63, R77). -/
theorem Fields.wellFormed_of_instr {d : Fields} {imm : Word} {i : Instr} (h : d.instr imm = some i) :
    d.reserved = false ∧ i.wellFormed = true := by
  cases hr : d.reserved with
  | true => rw [Fields.instr_of_reserved hr] at h; cases h
  | false =>
    obtain ⟨j, hj, hwf, -⟩ := Fields.instr_of_not_reserved imm hr
    exact ⟨rfl, Option.some.inj (hj.symm.trans h) ▸ hwf⟩

/-- The words the decoder accepts: one that needs no Immediate Word, or one that does and the word after it
(rules R50, R75, R77). -/
theorem decodeWords_cons_eq_ok_iff {w : Word} {rest rest' : List Word} {i : Instr} :
    decodeWords (w :: rest) = .ok (i, rest') ↔
      ((Fields.ofWord w).needImm = true ∧ ∃ imm, rest = imm :: rest' ∧ (Fields.ofWord w).instr imm = some i) ∨
      ((Fields.ofWord w).needImm = false ∧ rest = rest' ∧ (Fields.ofWord w).instr 0 = some i) := by
  simp only [decodeWords, recognized_all, Bool.not_true, Bool.false_eq_true, if_false]
  cases hn : (Fields.ofWord w).needImm with
  | true =>
    cases rest with
    | nil => simp
    | cons imm rest => cases hi : (Fields.ofWord w).instr imm <;> simp [and_comm, hi]
  | false => cases hi : (Fields.ofWord w).instr 0 <;> simp [and_comm]

/-- A reserved Decoded Instruction needs no Immediate Word, so none is fetched for it (rule R75). -/
theorem Fields.needImm_of_reserved {d : Fields} (h : d.reserved = true) : d.needImm = false := by
  rw [Fields.needImm, h, Bool.not_true, Bool.and_false]

/-- A reserved first word is refused, whatever follows (rules R63, R77). -/
theorem decodeWords_of_reserved {w : Word} (h : (Fields.ofWord w).reserved = true) (rest : List Word) :
    decodeWords (w :: rest) = .error .reservedCombination := by
  simp [decodeWords, recognized_all, Fields.needImm_of_reserved h, Fields.instr_of_reserved h]

/-- The words of a well-formed instruction decode to it, with what follows left over. -/
theorem decodeWords_encode_append {i : Instr} (h : i.wellFormed = true) (rest : List Word) :
    decodeWords (encode i ++ rest) = .ok (i, rest) := by
  have needImm := Instr.needImm_fields h
  have instr := Instr.instr_fields h
  rw [encode, List.cons_append, decodeWords_cons_eq_ok_iff, Fields.ofWord_toWord, needImm]
  cases hv : i.slotC.bind COperand.immediateWord with
  | none => exact .inr ⟨rfl, rfl, by rwa [hv] at instr⟩
  | some v => exact .inl ⟨rfl, v, rfl, by rwa [hv] at instr⟩

/-- Settles O4: the fields of a well-formed instruction survive the codec and stand for it, and bytes are words. -/
theorem decodeInvertsEncode : Obligations.DecodeInvertsEncode := by
  unfold Obligations.DecodeInvertsEncode
  intro i rest h
  have words := decodeWords_encode_append h rest
  exact ⟨words, by rwa [decodeBytes, imageWords_flatMap]⟩

/-- Settles O6, by running the decoder. -/
theorem exampleWordsDecode : Obligations.ExampleWordsDecode := by
  unfold Obligations.ExampleWordsDecode
  exact ⟨decode_halt, decode_add, by decide, decode_move, by decide, by decide, by decide, by decide⟩

/-- The six highest bits of the word of a literal `in`: opcode 13, `immediate` set, `regc_deref` clear (rule R63). -/
theorem reserved_bits : ∀ x : BitVec 6,
    ((x.extractLsb' 2 4 == Mnemonic.opcode .inp) && x.getLsbD 1 && !x.getLsbD 0) = decide (x = 0b110110) := by decide

/-- The mask of a word's six highest bits, and the reserved pattern under it, bit by bit. -/
theorem reservedMask_getLsbD : ∀ n < 32, (0xFC000000 : Word).getLsbD n = decide (26 ≤ n) ∧
    (0xD8000000 : Word).getLsbD n = (decide (26 ≤ n) && (0b110110 : BitVec 6).getLsbD (n - 26)) := by decide

/-- A word has the reserved pattern under the mask exactly if its six highest bits are that pattern's. -/
theorem and_reservedMask_iff (w : Word) : w &&& 0xFC000000 = 0xD8000000 ↔ w.extractLsb' 26 6 = 0b110110 := by
  constructor <;> intro h <;> apply BitVec.eq_of_getLsbD_eq <;> intro n hn
  · have bit : (w &&& 0xFC000000).getLsbD (26 + n) = (0xD8000000 : Word).getLsbD (26 + n) := by rw [h]
    obtain ⟨mask, pattern⟩ := reservedMask_getLsbD (26 + n) (by omega)
    rw [BitVec.getLsbD_and, mask, pattern] at bit
    simpa [hn] using bit
  · have bit : (w.extractLsb' 26 6).getLsbD (n - 26) = (0b110110 : BitVec 6).getLsbD (n - 26) := by rw [h]
    obtain ⟨mask, pattern⟩ := reservedMask_getLsbD n hn
    rw [BitVec.getLsbD_and, mask, pattern, ← bit, BitVec.getLsbD_extractLsb']
    grind

/-- A word's six highest bits decide whether it is reserved (rules R51, R52, R63). -/
theorem reserved_ofWord_iff (w : Word) : (Fields.ofWord w).reserved = true ↔ w &&& 0xFC000000 = 0xD8000000 := by
  have opcode : w.extractLsb' 28 4 = (w.extractLsb' 26 6).extractLsb' 2 4 := by
    apply BitVec.eq_of_getLsbD_eq
    grind
  have flags : w.getLsbD Config.modeImm = (w.extractLsb' 26 6).getLsbD 1 ∧
      w.getLsbD Config.modeC = (w.extractLsb' 26 6).getLsbD 0 := by
    simp [Config.modeImm, Config.modeC]
  rw [and_reservedMask_iff, ← decide_eq_true_iff (p := w.extractLsb' 26 6 = 0b110110), ← reserved_bits,
    Fields.reserved]
  simp only [Fields.ofWord, opcode, flags]

/-- A word that is not reserved announces by rule R59 as many words as the decoder reads (rule R75). -/
theorem wordLength_of_not_reserved {w : Word} (h : (Fields.ofWord w).reserved = false) :
    wordLength w = if (Fields.ofWord w).needImm then 2 else 1 := by
  simp only [wordLength, Fields.needImm, h, recognized_all, Bool.not_false, Bool.and_true]
  rfl

/-- Settles O5: the mask and the pattern are those of the reserved combination, and every other word stands for an
instruction. -/
theorem onlyTheReservedWordIsRefused : Obligations.OnlyTheReservedWordIsRefused := by
  unfold Obligations.OnlyTheReservedWordIsRefused
  intro w imm rest
  rw [ne_eq, ← reserved_ofWord_iff, Bool.not_eq_true]
  refine ⟨fun h => decodeWords_of_reserved h _, fun h => ?_⟩
  cases hn : (Fields.ofWord w).needImm with
  | true =>
    obtain ⟨i, hi, hwf, hlen⟩ := Fields.instr_of_not_reserved imm h
    have two : i.length = 2 := by rw [hlen, hn, if_pos rfl]
    refine ⟨i, hwf, by rw [hlen, wordLength_of_not_reserved h], ?_⟩
    rw [two]
    exact decodeWords_cons_eq_ok_iff.mpr (.inl ⟨hn, imm, rfl, hi⟩)
  | false =>
    obtain ⟨i, hi, hwf, hlen⟩ := Fields.instr_of_not_reserved 0 h
    have one : i.length = 1 := by rw [hlen, hn, if_neg nofun]
    refine ⟨i, hwf, by rw [hlen, wordLength_of_not_reserved h], ?_⟩
    rw [one]
    exact decodeWords_cons_eq_ok_iff.mpr (.inr ⟨hn, rfl, hi⟩)

end Sys2Proof

namespace Sys2Proof.Machine

/-! ### Programs and listing lines -/

/-- The first word of a well-formed instruction announces its Immediate Word (rule R59). -/
theorem wordLength_toWord_fields {i : Instr} (h : i.wellFormed = true) :
    wordLength i.fields.toWord = if (i.slotC.bind COperand.immediateWord).isSome then 2 else 1 := by
  have notReserved := (Fields.wellFormed_of_instr (Instr.instr_fields h)).1
  rw [← Fields.ofWord_toWord i.fields] at notReserved
  rw [wordLength_of_not_reserved notReserved, Fields.ofWord_toWord, Instr.needImm_fields h]

/-- A scan passes over the words of a well-formed instruction as a whole. -/
theorem scanComplete_encode_append {i : Instr} (h : i.wellFormed = true) (ws : List Word) :
    scanComplete 0 (encode i ++ ws) = scanComplete 0 ws := by
  rw [encode, List.cons_append, scanComplete, wordLength_toWord_fields h]
  cases i.slotC.bind COperand.immediateWord <;> rfl

/-- A scan passes over a whole program. -/
theorem scanComplete_program_append {is : List Instr} (h : ∀ i ∈ is, i.wellFormed = true) (ws : List Word) :
    scanComplete 0 (is.flatMap encode ++ ws) = scanComplete 0 ws := by
  induction is with
  | nil => rfl
  | cons i is ih =>
    rw [List.flatMap_cons, List.append_assoc, scanComplete_encode_append (h i List.mem_cons_self),
      ih fun j hj => h j (List.mem_cons_of_mem i hj)]

/-- Settles O7: the scan passes over the whole instructions, and is then at the end, or one word into the last. -/
theorem emittedProgramsScanComplete : Obligations.EmittedProgramsScanComplete := by
  unfold Obligations.EmittedProgramsScanComplete
  intro is h
  refine ⟨?_, fun i hi himm => ?_⟩
  · rw [imageComplete, ← List.append_nil (is.flatMap encode), scanComplete_program_append h]
    rfl
  · rw [imageComplete, scanComplete_program_append h, scanComplete, wordLength_toWord_fields hi, himm]
    rfl

/-- A register operand's token assembles to it (rules R61, R68). -/
@[simp] theorem assembleOperand_renderOperand (o : Operand) : assembleOperand (renderOperand o) = some o := by
  cases o <;> simp [assembleOperand, renderOperand, operandOf]

/-- A C operand's token assembles to it (rules R61, R66, R68). -/
@[simp] theorem assembleCOperand_renderCOperand (names : BifNames) (m : Mnemonic) (c : COperand) :
    assembleCOperand names m (renderCOperand c) = some c := by
  cases c <;> simp [assembleCOperand, renderCOperand]

/-- The listing line of an instruction other than `bif`: its mnemonic and its operands in slot order (rule R68). -/
theorem renderInstr_of_ne_callBif (names : BifNames) {i : Instr} (h : i.mnemonic ≠ .callBif) :
    renderInstr names i = some (i.mnemonic, (i.slotA.map renderOperand).toList ++ (i.slotB.map renderOperand).toList
      ++ (i.slotC.map renderCOperand).toList) := by
  cases i with
  | callBif c => exact absurd rfl h
  | _ => rfl

/-- A listing line of one operand assembles to the instruction of that operand. -/
theorem assembleLine_one {m : Mnemonic} (hm : arity m.opcode = 1) (names : BifNames) (c : COperand) :
    assembleLine names m [renderCOperand c] = some (m.build (.direct 0) (.direct 0) c) := by
  simp [assembleLine, hm]

/-- A listing line of two operands assembles to the instruction of those operands. -/
theorem assembleLine_two {m : Mnemonic} (hm : arity m.opcode = 2) (names : BifNames) (b : Operand) (c : COperand) :
    assembleLine names m [renderOperand b, renderCOperand c] = some (m.build (.direct 0) b c) := by
  simp [assembleLine, hm]

/-- A listing line of three operands assembles to the instruction of those operands. -/
theorem assembleLine_three {m : Mnemonic} (hm : arity m.opcode = 3) (names : BifNames) (a b : Operand)
    (c : COperand) : assembleLine names m [renderOperand a, renderOperand b, renderCOperand c] = some (m.build a b c) := by
  simp [assembleLine, assembleThree, hm]

/-- Settles O8: every operand's token assembles to it, for each of the four operand counts. -/
theorem assemblingAListingLineGivesItBack : Obligations.AssemblingAListingLineGivesItBack := by
  unfold Obligations.AssemblingAListingLineGivesItBack
  intro names i h
  refine ⟨_, renderInstr_of_ne_callBif names h, ?_⟩
  cases i with
  | callBif c => exact absurd rfl h
  | halt => rfl
  | br c | brz c | brnz c | inp c | out c => exact assembleLine_one rfl names c
  | move b c => exact assembleLine_two rfl names b c
  | add a b c | sub a b c | mul a b c | div a b c | shr a b c | shl a b c | nand a b c | xor a b c =>
    exact assembleLine_three rfl names a b c

end Sys2Proof.Machine
end

section
/-! What no step can undo: the parameters and the end of `IN` stand, the streams move forward, and memory changes by
stores below `MEM_WORDS` alone. -/

namespace Sys2Proof.Machine

/-! ### States ahead of a state -/

/-- `t` is ahead of `s`: the parameters and the end of `IN` are the same, `OUT` is extended, `IN` consumed from the
front, and memory is what a list of stores, those outside it dropped, makes of the memory of `s`. -/
structure State.Ahead (s t : State) : Prop where
  params : t.params = s.params
  inputEnded : t.inputEnded = s.inputEnded
  output : s.output <+: t.output
  input : t.input <:+ s.input
  mem : ∃ ws, t.mem = storeAll ws s.params s.mem

/-- Stores in a row are the stores of both lists. -/
theorem storeAll_append (ws ws' : List (Word × Word)) (p : Params) (m : Memory) :
    storeAll (ws ++ ws') p m = storeAll ws' p (storeAll ws p m) := by
  induction ws generalizing m with
  | nil => rfl
  | cons aw ws ih => exact ih _

theorem State.Ahead.trans {s t u : State} (h : State.Ahead s t) (h' : State.Ahead t u) : State.Ahead s u := by
  obtain ⟨ws, hws⟩ := h.mem
  obtain ⟨ws', hws'⟩ := h'.mem
  exact ⟨h'.params.trans h.params, h'.inputEnded.trans h.inputEnded, h.output.trans h'.output, h'.input.trans h.input,
    ws ++ ws', by rw [storeAll_append, hws', hws, h.params]⟩

/-- A state that differs in registers and `RUN` alone is ahead. -/
theorem State.Ahead.of_sameOutside {s t : State} (h : State.SameOutside s t) (hmem : t.mem = s.mem) :
    State.Ahead s t := by
  obtain ⟨hin, hend, hout, hp, -⟩ := h
  exact ⟨hp, hend, hout ▸ List.prefix_rfl, hin ▸ List.suffix_rfl, [], hmem⟩

theorem State.Ahead.refl (s : State) : State.Ahead s s := .of_sameOutside s.sameOutside_refl rfl

/-! ### The operations of a step lead ahead -/

theorem State.ahead_fetched (s : State) (i : Instr) : State.Ahead s (s.fetched i) :=
  .of_sameOutside s.sameOutside_refl rfl

theorem State.ahead_fail (s : State) (k : FailKind) : State.Ahead s (s.fail k) :=
  .of_sameOutside s.sameOutside_refl rfl

theorem State.ahead_halt (s : State) : State.Ahead s s.halt := .of_sameOutside s.sameOutside_refl rfl

theorem State.ahead_setReg (s : State) (r : Reg) (v : Word) : State.Ahead s (s.setReg r v) :=
  .of_sameOutside s.sameOutside_refl rfl

theorem State.ahead_outByte (s : State) (k : Byte) : State.Ahead s (s.outByte k) :=
  ⟨rfl, rfl, List.prefix_append _ _, List.suffix_rfl, [], rfl⟩

theorem State.ahead_of_inByte {s t : State} {v : Word} (h : s.inByte = some (v, t)) : State.Ahead s t := by
  rcases State.inByte_cases h with ⟨k, rest, hin, -, rfl⟩ | ⟨-, -, -, rfl⟩
  · exact ⟨rfl, rfl, List.prefix_rfl, hin ▸ List.suffix_cons k rest, [], rfl⟩
  · exact .refl t

/-- A built-in function keeps to its contract whatever its handler answers (rule R143). -/
theorem State.ahead_bifCall (s : State) (id : Nat) : State.Ahead s (s.bifCall id) := by
  unfold State.bifCall
  split
  · exact ⟨rfl, rfl, List.prefix_append _ _, List.suffix_rfl, [], rfl⟩
  · exact ⟨rfl, rfl, List.prefix_append _ _, List.drop_suffix _ _, _, rfl⟩

theorem State.ahead_of_writeDst {s t : State} {d : Dest} {v : Word} (h : s.writeDst d v = some t) :
    State.Ahead s t := by
  rcases State.writeDst_cases h with ⟨r, -, rfl⟩ | ⟨a, -, ha, rfl⟩
  · exact s.ahead_setReg r v
  · exact ⟨rfl, rfl, List.prefix_rfl, List.suffix_rfl, [(a, v)], (if_pos ha).symm⟩

theorem State.ahead_finishWrite (s : State) (d : Dest) (v : Word) {after : State → State}
    (ha : ∀ u, State.Ahead u (after u)) : State.Ahead s (s.finishWrite d v after) := by
  rcases s.finishWrite_cases d v after with ⟨u, hu, e⟩ | ⟨-, e⟩ <;> rw [e]
  · exact (State.ahead_of_writeDst hu).trans (ha u)
  · exact s.ahead_fail .outOfRange

theorem State.ahead_flagUpdate (s : State) (x : Word) : State.Ahead s (s.flagUpdate x) := by
  obtain ⟨-, hmem, hout⟩ := State.flagUpdate_frame x s
  exact .of_sameOutside hout hmem

/-- Every effect of an instruction leads ahead. -/
theorem ExecEffect.ahead {i : Instr} {s t : State} (h : ExecEffect i s t) : State.Ahead s t := by
  cases h with
  | halts => exact (s.ahead_fetched i).trans (State.ahead_halt _)
  | outOfRange | reserved | dividesByZero | aboveTheTable => exact (s.ahead_fetched i).trans (State.ahead_fail _ _)
  | jumps c v => exact (s.ahead_fetched i).trans (State.ahead_setReg _ _ v)
  | fallsThrough => exact s.ahead_fetched i
  | emits => exact (s.ahead_fetched i).trans (State.ahead_outByte _ _)
  | waits => exact .refl s
  | calls => exact (s.ahead_fetched i).trans (State.ahead_bifCall _ _)
  | reads c d v s2 _ _ hin =>
    exact (s.ahead_fetched i).trans ((State.ahead_of_inByte hin).trans (s2.ahead_finishWrite d v .refl))
  | writes d v => exact (s.ahead_fetched i).trans (State.ahead_finishWrite _ d v .refl)
  | subtracts d v =>
    exact (s.ahead_fetched i).trans (State.ahead_finishWrite _ d v fun u => u.ahead_flagUpdate v)

/-- Every step leads ahead. -/
theorem ahead_of_step {s t : State} (h : step s = .next t) : State.Ahead s t := by
  rcases step_effect h with ⟨-, rfl⟩ | ⟨-, hf⟩ | ⟨-, i, -, he⟩
  · exact .refl t
  · rcases State.fetch_error hf with rfl | rfl | rfl
    · exact s.ahead_fail .outOfRange
    all_goals exact .of_sameOutside s.sameOutside_refl rfl
  · exact he.ahead

/-! ### What follows for a step -/

/-- The invariant holds ahead of a state where it holds: stores below `MEM_WORDS` keep memory canonical and within
itself. -/
theorem State.Inv.of_ahead {s t : State} (h : State.Inv s) (ha : State.Ahead s t) : State.Inv t := by
  obtain ⟨hp, hwf, hwithin⟩ := h
  obtain ⟨ws, hmem⟩ := ha.mem
  rw [State.Inv, ha.params, hmem]
  exact ⟨hp, storeAll_wf ws hwf, storeAll_within ws hwithin⟩

/-- Settles O14: a step leads ahead, and the invariant holds ahead. -/
theorem stepKeepsTheInvariant : Obligations.StepKeepsTheInvariant := by
  unfold Obligations.StepKeepsTheInvariant
  exact fun s t hs h => hs.of_ahead (ahead_of_step h)

/-- Settles O25: a step leads ahead. -/
theorem stepKeepsTheParameters : Obligations.StepKeepsTheParameters := by
  unfold Obligations.StepKeepsTheParameters
  exact fun s t h => (ahead_of_step h).params

/-- Settles O26: a step leads ahead. -/
theorem streamsOnlyMoveForward : Obligations.StreamsOnlyMoveForward := by
  unfold Obligations.StreamsOnlyMoveForward
  intro s t h
  have ha := ahead_of_step h
  exact ⟨ha.output, ha.input, ha.inputEnded⟩

end Sys2Proof.Machine
end

section
/-! The fetch and the decoder read the same words, a fetch out of range fails, and the memory port stores what the next
fetch reads (rules R33, R34, R97 to R102). -/

namespace Sys2Proof.Machine

/-- The fetches move IP, and reads of memory do not see that. -/
@[simp] theorem State.memRead_advance (s : State) (n : Nat) (a : Word) : (s.advance n).memRead a = s.memRead a := rfl

/-- A word that needs an Immediate Word is legal. -/
theorem Fields.illegal_of_needImm {d : Fields} (h : d.needImm = true) : d.illegal = false := by
  rw [Fields.illegal_eq_reserved]
  cases hr : d.reserved with
  | true => rw [Fields.needImm_of_reserved hr] at h; cases h
  | false => rfl

/-- A word that stands for an instruction is legal. -/
theorem Fields.illegal_of_instr {d : Fields} {imm : Word} {i : Instr} (h : d.instr imm = some i) :
    d.illegal = false := by
  rw [Fields.illegal_eq_reserved, (Fields.wellFormed_of_instr h).1]

/-- The instruction fetched: of the word at IP, or of that and the word after it (rules R98 to R100). -/
theorem State.fetch_eq_ok_iff {s : State} {i : Instr} :
    s.fetch = .ok i ↔ ∃ w, s.memRead s.ip = some w ∧
      (((Fields.ofWord w).needImm = true ∧
          ∃ imm, s.memRead (s.ip + 1) = some imm ∧ (Fields.ofWord w).instr imm = some i) ∨
       ((Fields.ofWord w).needImm = false ∧ (Fields.ofWord w).instr 0 = some i)) := by
  have ip : (s.advance 1).ip = s.ip + 1 := s.ip_advance 1
  constructor
  · intro h
    simp only [State.fetch, State.memRead_advance, ip] at h
    split at h
    · cases h
    · rename_i w hw
      refine ⟨w, hw, ?_⟩
      split at h
      · cases h
      · split at h
        · split at h
          · cases h
          · split at h
            · cases h; exact .inl ⟨‹_›, _, ‹_›, ‹_›⟩
            · cases h
        · split at h
          · cases h; exact .inr ⟨Bool.eq_false_iff.mpr ‹_›, ‹_›⟩
          · cases h
  · rintro ⟨w, hw, ⟨hn, imm, himm, hi⟩ | ⟨hn, hi⟩⟩
    · simp only [State.fetch, State.memRead_advance, ip, hw, Fields.illegal_of_instr hi, hn, himm, hi, if_true,
        Bool.false_eq_true, if_false]
    · simp only [State.fetch, hw, Fields.illegal_of_instr hi, hn, hi, Bool.false_eq_true, if_false]

/-- What is fetched is well formed (rule R63). -/
theorem State.wellFormed_of_fetch {s : State} {i : Instr} (h : s.fetch = .ok i) : i.wellFormed = true := by
  obtain ⟨w, -, ⟨-, imm, -, hi⟩ | ⟨-, hi⟩⟩ := State.fetch_eq_ok_iff.mp h <;> exact (Fields.wellFormed_of_instr hi).2

/-- A word at IP that decodes alone is the instruction fetched. -/
theorem State.fetch_of_decodeWords_one {s : State} {w : Word} {i : Instr} (hw : s.memRead s.ip = some w)
    (h : decodeWords [w] = .ok (i, [])) : s.fetch = .ok i := by
  obtain ⟨-, imm, e, -⟩ | ⟨hn, -, hi⟩ := decodeWords_cons_eq_ok_iff.mp h
  · cases e
  · exact State.fetch_eq_ok_iff.mpr ⟨w, hw, .inr ⟨hn, hi⟩⟩

/-- A word at IP that decodes with the word after it is the instruction fetched. -/
theorem State.fetch_of_decodeWords_two {s : State} {w imm : Word} {i : Instr} (hw : s.memRead s.ip = some w)
    (himm : s.memRead (s.ip + 1) = some imm) (h : decodeWords [w, imm] = .ok (i, [])) : s.fetch = .ok i := by
  obtain ⟨hn, imm', e, hi⟩ | ⟨-, e, -⟩ := decodeWords_cons_eq_ok_iff.mp h
  · cases e
    exact State.fetch_eq_ok_iff.mpr ⟨w, hw, .inl ⟨hn, imm, himm, hi⟩⟩
  · cases e

/-- Settles O15: the fetch reads what the decoder reads, and the step executes what is fetched. -/
theorem stepRunsTheDecodedInstruction : Obligations.StepRunsTheDecodedInstruction := by
  unfold Obligations.StepRunsTheDecodedInstruction
  intro s w i hr hw h
  have fetched : s.fetch = .ok i := by
    rcases h with h | ⟨imm, himm, h⟩
    · exact State.fetch_of_decodeWords_one hw h
    · exact State.fetch_of_decodeWords_two hw himm h
  exact ⟨State.wellFormed_of_fetch fetched, step_of_fetch_ok hr fetched⟩

/-- A failure raised before any fetch has changed `RUN` alone (rule R109). -/
theorem State.failsAt_fail (s : State) (k : FailKind) : State.FailsAt s (s.fail k) k s.ip :=
  ⟨rfl, rfl, fun _ _ => rfl, rfl, s.sameOutside_refl⟩

/-- Settles O20: neither fetch finds a word at or above `MEM_WORDS`. -/
theorem fetchesOutOfRangeFail : Obligations.FetchesOutOfRangeFail := by
  unfold Obligations.FetchesOutOfRangeFail
  refine ⟨fun s hr h => ?_, fun s w hr hw hn h => ?_⟩
  · have fetch : s.fetch = .error (s.fail .outOfRange) := by
      simp only [State.fetch, s.memRead_eq_none_of_memWords_le h]
    exact ⟨_, step_of_fetch_error hr fetch, s.failsAt_fail .outOfRange⟩
  · have fetch : s.fetch = .error ((s.advance 1).fail .outOfRange) := by
      have ip : (s.advance 1).ip = s.ip + 1 := s.ip_advance 1
      simp only [State.fetch, State.memRead_advance, ip, hw, Fields.illegal_of_needImm hn, hn,
        s.memRead_eq_none_of_memWords_le h, if_true, Bool.false_eq_true, if_false]
    exact ⟨_, step_of_fetch_error hr fetch, s.failsAt_fail_advance 1 .outOfRange⟩

/-! ### The memory port -/

/-- No address at or above `MEM_WORDS` is legal (rules R31, R33). -/
theorem legalAddr_of_memWords_le {p : Params} {a : Nat} (h : memWords p ≤ a) : legalAddr p a = false := by
  rw [legalAddr_eq, decide_eq_false (Nat.not_lt.mpr h)]

/-- A store succeeds below `MEM_WORDS` (rule R34). -/
theorem State.memWrite_legal (s : State) {a : Word} (v : Word) (h : legalAddr s.params a.toNat = true) :
    s.memWrite a v = some { s with mem := Memory.writeWord s.mem a.toNat v } := by
  simp [State.memWrite, h]

/-- A store fails at or above `MEM_WORDS` (rule R34). -/
theorem State.memWrite_illegal (s : State) {a : Word} (v : Word) (h : legalAddr s.params a.toNat = false) :
    s.memWrite a v = none := by
  simp [State.memWrite, h]

/-- What a read gives after a store: the word stored at its address, the word before at every other. -/
theorem State.memRead_of_memWrite {s t : State} {a v : Word} (h : s.memWrite a v = some t) (a' : Word) :
    t.memRead a' = if a' = a then some v else s.memRead a' := by
  obtain ⟨ha, rfl⟩ := State.memWrite_eq_some h
  simp only [State.memRead, Memory.readWord_writeWord, BitVec.toNat_inj, eq_comm (a := a)]
  split_ifs <;> simp_all

/-- Settles O28, by the address range. -/
theorem memoryPortReadsAndWritesOneWord : Obligations.MemoryPortReadsAndWritesOneWord := by
  unfold Obligations.MemoryPortReadsAndWritesOneWord
  refine fun s a v => ⟨fun h => ?_, fun h => ?_⟩
  · have legal := (legalAddr_iff s.params a.toNat).mpr h
    have stored := s.memWrite_legal v legal
    refine ⟨s.memRead_legal legal, _, stored, ?_, fun a' ha' => ?_, fun k hk => ?_, fun _ => rfl, rfl,
      s.sameOutside_refl⟩
    · rw [State.memRead_of_memWrite stored, if_pos rfl]
    · rw [State.memRead_of_memWrite stored, if_neg ha']
    · rw [Memory.readByte_writeWord, if_neg hk]
  · have illegal := legalAddr_of_memWords_le h
    exact ⟨s.memRead_illegal illegal, s.memWrite_illegal v illegal⟩

/-- Settles O29: the fetch reads the word just stored. -/
theorem storesAreSeenByTheNextFetch : Obligations.StoresAreSeenByTheNextFetch := by
  unfold Obligations.StoresAreSeenByTheNextFetch
  intro s t a v i hw hip hr hd
  obtain ⟨-, ht⟩ := State.memWrite_eq_some hw
  have ip : t.ip = a := by rw [ht]; exact hip
  have read : t.memRead t.ip = some v := by rw [ip, State.memRead_of_memWrite hw, if_pos rfl]
  exact step_of_fetch_ok (by rw [ht]; exact hr) (State.fetch_of_decodeWords_one read hd)

/-- Settles O30, by the register-file laws. -/
theorem registerWriteSetsOneSlot : Obligations.RegisterWriteSetsOneSlot := by
  unfold Obligations.RegisterWriteSetsOneSlot
  intro s r v
  exact ⟨s.reg_setReg_same r v, fun _ h => s.reg_setReg_other v h.symm, rfl, rfl, s.sameOutside_refl⟩

end Sys2Proof.Machine
end

section
/-! The run state after a step, and how little a failing step changes (rules R95, R109, R115, R142, R173). -/

namespace Sys2Proof.Machine

/-! ### What an effect does to `RUN` -/

/-- A write-back that ends in another run state failed with `OutOfRange`, nothing written. -/
theorem State.finishWrite_of_run_ne {s : State} {d : Dest} {v : Word} {after : State → State}
    (ha : ∀ u, (after u).run = u.run) (h : (s.finishWrite d v after).run ≠ s.run) :
    s.finishWrite d v after = s.fail .outOfRange := by
  rcases s.finishWrite_cases d v after with ⟨t, ht, e⟩ | ⟨-, e⟩
  · exact absurd (by rw [e, ha, State.run_of_writeDst ht]) h
  · exact e

/-- An effect that leaves another run state is the halt, a failure after the fetches, or the failing write of an `in`
that consumed a byte or found the end; and a failure is `InvalidBif` in a `bif` above the table only. -/
theorem ExecEffect.run_cases {i : Instr} {s t : State} (h : ExecEffect i s t) (hr : t.run ≠ s.run) :
    (i = .halt ∧ t = (s.fetched i).halt) ∨
    (∃ c v, i = .callBif c ∧ (s.fetched i).effC c = some v ∧ s.params.bifCount ≤ v.toNat ∧
      t = (s.fetched i).fail .invalidBif) ∨
    (∃ k, t = (s.fetched i).fail k ∧ k ≠ .invalidBif) ∨
    ∃ c v s2, i = .inp c ∧ (s.fetched i).inByte = some (v, s2) ∧ t = s2.fail .outOfRange := by
  cases h with
  | halts hi => exact .inl ⟨hi, rfl⟩
  | aboveTheTable c v hi hv hle => exact .inr (.inl ⟨c, v, hi, hv, hle, rfl⟩)
  | outOfRange | reserved | dividesByZero => exact .inr (.inr (.inl ⟨_, rfl, nofun⟩))
  | jumps | fallsThrough | emits | waits => exact absurd rfl hr
  | calls c v => exact absurd (State.bifCall_run _ _) hr
  | reads c d v s2 hi _ hin =>
    have run : s2.run = s.run := (State.run_of_inByte hin).trans (s.fetched_run i)
    exact .inr (.inr (.inr ⟨c, v, s2, hi, hin, State.finishWrite_of_run_ne (fun _ => rfl) (run ▸ hr)⟩))
  | writes d v => exact .inr (.inr (.inl ⟨_, State.finishWrite_of_run_ne (fun _ => rfl) hr, nofun⟩))
  | subtracts d v =>
    exact .inr (.inr (.inl ⟨_, State.finishWrite_of_run_ne (fun u => u.flagUpdate_run v) hr, nofun⟩))

/-- A failing fetch never halts the machine nor fails with `InvalidBif`. -/
theorem State.run_of_fetch_error {s t : State} (h : s.fetch = .error t) :
    t.run ≠ .halted ∧ t.run ≠ .failed .invalidBif := by
  rcases State.fetch_error h with rfl | rfl | rfl <;> simp

/-- A step of a running machine that leaves it no longer Running, seen from the instruction fetched. -/
theorem exists_fetch_of_step {s t : State} (hr : s.run = .running) (h : step s = .next t) (ht : t.run ≠ .running) :
    s.fetch = .error t ∨ ∃ i, s.fetch = .ok i ∧ ExecEffect i s t ∧ t.run ≠ s.run := by
  rcases step_effect h with ⟨hn, -⟩ | ⟨-, hf⟩ | ⟨-, i, hf, he⟩
  · exact absurd hr hn
  · exact .inl hf
  · exact .inr ⟨i, hf, he, hr ▸ ht⟩

/-- Settles O18: of all that changes `RUN`, the effect of `halt` alone leaves Halted. -/
theorem haltedOnlyByHalt : Obligations.HaltedOnlyByHalt := by
  unfold Obligations.HaltedOnlyByHalt
  refine fun s t hr h => ⟨fun ht => ?_, fun hf => ?_⟩
  · rcases exists_fetch_of_step hr h (by rw [ht]; nofun) with hf | ⟨i, hf, he, hne⟩
    · exact absurd ht (State.run_of_fetch_error hf).1
    · rcases he.run_cases hne with ⟨rfl, -⟩ | ⟨_, _, -, -, -, rfl⟩ | ⟨_, rfl, -⟩ | ⟨_, _, _, -, -, rfl⟩
      · exact hf
      all_goals cases ht
  · rw [step_of_fetch_ok hr hf, exec_halt] at h
    obtain rfl := next_inj h
    rfl

/-- `bif` of an id at or above `BIF_COUNT` fails (rule R142). -/
theorem exec_callBif_above {c : COperand} {s : State} {v : Word}
    (hv : (s.advance (1 + c.extraWords)).effC c = some v) (h : s.params.bifCount ≤ v.toNat) :
    exec (.callBif c) s = .next ((s.advance (1 + c.extraWords)).fail .invalidBif) := by
  simp [exec_callBif, execBif, hv, h]

/-- Settles O23: of all that changes `RUN`, a `bif` above the table alone leaves `Failed(InvalidBif)`. -/
theorem invalidBifExactlyIdOutOfRange : Obligations.InvalidBifExactlyIdOutOfRange := by
  unfold Obligations.InvalidBifExactlyIdOutOfRange
  refine fun s t hr h => ⟨fun ht => ?_, ?_⟩
  · rcases exists_fetch_of_step hr h (by rw [ht]; nofun) with hf | ⟨i, hf, he, hne⟩
    · exact absurd ht (State.run_of_fetch_error hf).2
    · rcases he.run_cases hne with ⟨-, rfl⟩ | ⟨c, v, rfl, hv, hle, -⟩ | ⟨k, rfl, hk⟩ | ⟨_, _, _, -, -, rfl⟩
      · cases ht
      · exact ⟨c, v, hf, hv, hle⟩
      · exact absurd (RunState.failed.inj ht) hk
      · cases ht
  · rintro ⟨c, v, hf, hv, hle⟩
    rw [step_of_fetch_ok hr hf, exec_callBif_above hv hle] at h
    obtain rfl := next_inj h
    rfl

/-! ### Failures are precise -/

/-- An instruction is one or two words long (rule R50). -/
theorem Instr.length_eq_one_or_two {i : Instr} (h : i.wellFormed = true) : i.length = 1 ∨ i.length = 2 := by
  rw [length_of_wellFormed h]
  split <;> simp

/-- Settles O21: the failures of the fetches and of the phases after them change IP and `RUN`, and the failing write of
an `in` comes after its byte. -/
theorem failuresArePrecise : Obligations.FailuresArePrecise := by
  unfold Obligations.FailuresArePrecise
  intro s t k hr h ht
  rcases exists_fetch_of_step hr h (by rw [ht]; nofun) with hf | ⟨i, hf, he, hne⟩
  · refine ⟨(State.ip_of_fetch_error hf).imp_right .inl, ?_⟩
    rcases State.fetch_error hf with rfl | rfl | rfl
    · exact ⟨fun _ _ => rfl, rfl, rfl, rfl, rfl, rfl, .inl rfl⟩
    all_goals exact ⟨fun _ h => s.reg_advance_other 1 h, rfl, rfl, rfl, rfl, rfl, .inl rfl⟩
  · have ip : (s.fetched i).ip = s.ip ∨ (s.fetched i).ip = s.ip + 1 ∨ (s.fetched i).ip = s.ip + 2 := by
      right
      rw [State.fetched, State.ip_advance]
      rcases Instr.length_eq_one_or_two (State.wellFormed_of_fetch hf) with e | e <;> rw [e]
      · exact .inl rfl
      · exact .inr rfl
    have reg (r : Reg) (h : r ≠ Config.regIp) : (s.fetched i).reg r = s.reg r := s.reg_advance_other i.length h
    rcases he.run_cases hne with ⟨-, rfl⟩ | ⟨_, _, -, -, -, rfl⟩ | ⟨_, rfl, -⟩ | ⟨c, v, s2, rfl, hin, rfl⟩
    · cases ht
    · exact ⟨ip, reg, rfl, rfl, rfl, rfl, rfl, .inl rfl⟩
    · exact ⟨ip, reg, rfl, rfl, rfl, rfl, rfl, .inl rfl⟩
    · rcases State.inByte_cases hin with ⟨byte, rest, hbyte, -, rfl⟩ | ⟨-, -, -, rfl⟩
      · exact ⟨ip, reg, rfl, rfl, rfl, rfl, rfl, .inr ⟨⟨c, hf⟩, byte, hbyte⟩⟩
      · exact ⟨ip, reg, rfl, rfl, rfl, rfl, rfl, .inl rfl⟩

end Sys2Proof.Machine
end

section
/-! Frames: what each instruction leaves unchanged, and the zero flag (rules R20, R21, R104). -/

namespace Sys2Proof.Machine

/-! ### The frame of any instruction but `bif` -/

/-- A register that is neither IP nor the destination, nor FLAGS in a `sub`, keeps its word. -/
theorem ExecEffect.reg_frame {i : Instr} {s t : State} {r : Reg} (h : ExecEffect i s t)
    (hbif : i.mnemonic ≠ .callBif) (hsub : i.mnemonic = .sub → r ≠ Config.regFlags) (hip : r ≠ Config.regIp)
    (hd : destOf i s ≠ some (.reg r)) : t.reg r = s.reg r := by
  rcases h.reg_of_not_dest hbif hsub hd with e | ⟨-, -, rfl⟩ | ⟨_, v, -, rfl, -⟩
  · exact e.trans (s.reg_advance_other i.length hip)
  · rfl
  · exact (State.reg_setIp_other _ v hip).trans (s.reg_advance_other i.length hip)

/-- A write-back leaves every byte outside the destination word, where what follows it leaves memory. -/
theorem State.readByte_finishWrite (s : State) {d : Dest} (v : Word) {after : State → State} {k : Nat}
    (ha : ∀ u, (after u).mem = u.mem) (hd : d.covers k = false) :
    Memory.readByte (s.finishWrite d v after).mem k = Memory.readByte s.mem k := by
  rcases s.finishWrite_cases d v after with ⟨u, hu, e⟩ | ⟨-, e⟩
  · rw [e, ha]
    rcases State.writeDst_cases hu with ⟨_, -, rfl⟩ | ⟨a, rfl, -, rfl⟩
    · rfl
    · rw [Memory.readByte_writeWord, if_neg (by simpa [Dest.covers] using hd)]
  · rw [e, State.fail_mem]

/-- Taking a byte from `IN` leaves memory. -/
theorem State.mem_of_inByte {s t : State} {v : Word} (h : s.inByte = some (v, t)) : t.mem = s.mem := by
  rcases State.inByte_cases h with ⟨_, _, -, -, rfl⟩ | ⟨-, -, -, rfl⟩ <;> rfl

/-- A byte outside the destination word keeps its value. -/
theorem ExecEffect.readByte_frame {i : Instr} {s t : State} {k : Nat} (h : ExecEffect i s t)
    (hbif : i.mnemonic ≠ .callBif) (hk : ∀ d, destOf i s = some d → d.covers k = false) :
    Memory.readByte t.mem k = Memory.readByte s.mem k := by
  cases h with
  | halts | outOfRange | reserved | dividesByZero | aboveTheTable | jumps | fallsThrough | emits | waits => rfl
  | calls c v hi => exact absurd (congrArg Instr.mnemonic hi) hbif
  | reads c d v s2 _ hd hin =>
    have consumed : s2.mem = (s.fetched i).mem := State.mem_of_inByte hin
    exact (s2.readByte_finishWrite v (fun _ => rfl) (hk d hd)).trans (by rw [consumed]; rfl)
  | writes d v hd => exact State.readByte_finishWrite _ v (fun _ => rfl) (hk d hd)
  | subtracts d v hd => exact State.readByte_finishWrite _ v (fun u => (State.flagUpdate_frame v u).2.1) (hk d hd)

/-- A write-back leaves everything outside, where what follows it does. -/
theorem State.sameOutside_finishWrite (s : State) (d : Dest) (v : Word) {after : State → State}
    (ha : ∀ u, State.SameOutside u (after u)) : State.SameOutside s (s.finishWrite d v after) := by
  rcases s.finishWrite_cases d v after with ⟨u, hu, e⟩ | ⟨-, e⟩ <;> rw [e]
  · rcases State.writeDst_cases hu with ⟨_, -, rfl⟩ | ⟨_, -, -, rfl⟩ <;> exact ha _
  · exact s.sameOutside_refl

/-- Everything outside the registers, memory and `RUN` stands, but that `out` may append a byte and `in` take one. -/
theorem ExecEffect.sameOutside {i : Instr} {s t : State} (h : ExecEffect i s t) (hbif : i.mnemonic ≠ .callBif) :
    State.SameOutside s t ∨
    (i.mnemonic = .out ∧ ∃ byte, State.SameOutside { s with output := s.output ++ [byte] } t) ∨
    (i.mnemonic = .inp ∧ ∃ byte rest, s.input = byte :: rest ∧ State.SameOutside { s with input := rest } t) := by
  cases h with
  | halts | outOfRange | reserved | dividesByZero | aboveTheTable | jumps | fallsThrough | waits =>
    exact .inl s.sameOutside_refl
  | emits c v hi => exact .inr (.inl ⟨congrArg Instr.mnemonic hi, _, rfl, rfl, rfl, rfl, rfl⟩)
  | calls c v hi => exact absurd (congrArg Instr.mnemonic hi) hbif
  | reads c d v s2 hi _ hin =>
    have written := s2.sameOutside_finishWrite d v (after := id) State.sameOutside_refl
    rcases State.inByte_cases hin with ⟨byte, rest, hbyte, -, rfl⟩ | ⟨-, -, -, rfl⟩
    · exact .inr (.inr ⟨congrArg Instr.mnemonic hi, byte, rest, hbyte, written⟩)
    · exact .inl written
  | writes d v => exact .inl ((s.fetched i).sameOutside_finishWrite d v State.sameOutside_refl)
  | subtracts d v =>
    exact .inl ((s.fetched i).sameOutside_finishWrite d v fun u => (State.flagUpdate_frame v u).2.2)

/-! ### The frames of the instructions -/

/-- Settles O56: the frame of any instruction, for eight that are neither `in`, `out`, `bif` nor `sub`. -/
theorem frameOfMoveAndArithmetic : Obligations.FrameOfMoveAndArithmetic := by
  unfold Obligations.FrameOfMoveAndArithmetic
  intro i s t hi h
  have effect := exec_effect h
  have notBif : i.mnemonic ≠ .callBif := fun e => absurd (e ▸ hi) (by decide)
  refine ⟨fun r hip hd => effect.reg_frame notBif (fun e => absurd (e ▸ hi) (by decide)) hip hd,
    fun k hk => effect.readByte_frame notBif hk, ?_⟩
  rcases effect.sameOutside notBif with same | ⟨e, -⟩ | ⟨e, -⟩
  · exact same
  all_goals exact absurd (e ▸ hi) (by decide)

/-- Settles O58: the frame of any instruction, for five that have no destination. -/
theorem frameOfHaltBranchesAndOut : Obligations.FrameOfHaltBranchesAndOut := by
  unfold Obligations.FrameOfHaltBranchesAndOut
  intro i s t hi h
  have effect := exec_effect h
  have notBif : i.mnemonic ≠ .callBif := fun e => absurd (e ▸ hi) (by decide)
  have noDest : destOf i s = none := by
    cases i with
    | halt | br | brz | brnz | out => rfl
    | _ => simp [Instr.mnemonic] at hi
  refine ⟨fun r hip => effect.reg_frame notBif (fun e => absurd (e ▸ hi) (by decide)) hip (by rw [noDest]; nofun),
    fun k => effect.readByte_frame notBif (by rw [noDest]; nofun), ?_⟩
  rcases effect.sameOutside notBif with ⟨hin, hend, hout, hp, hb⟩ | ⟨e, _, hin, hend, -, hp, hb⟩ | ⟨e, -⟩
  · exact ⟨hin, hend, fun _ => hout, hp, hb⟩
  · exact ⟨hin, hend, fun hne => absurd e hne, hp, hb⟩
  · exact absurd (e ▸ hi) (by decide)

/-- Settles O59: the frame of any instruction, for `in`. -/
theorem frameOfIn : Obligations.FrameOfIn := by
  unfold Obligations.FrameOfIn
  intro c s t h
  have effect := exec_effect h
  refine ⟨fun r hip hd => effect.reg_frame nofun nofun hip hd, fun k hk => effect.readByte_frame nofun hk, ?_⟩
  rcases effect.sameOutside nofun with ⟨hin, hend, hout, hp, hb⟩ | ⟨e, -⟩ |
    ⟨-, byte, rest, hbyte, hin, hend, hout, hp, hb⟩
  · exact ⟨.inl hin, hend, hout, hp, hb⟩
  · cases e
  · exact ⟨.inr ⟨byte, by rw [hbyte, hin]⟩, hend, hout, hp, hb⟩

/-! ### FLAGS -/

/-- A write-back to another place than FLAGS, then the flag update: FLAGS stands, or Z is set in it. -/
theorem State.flags_finishWrite_flagUpdate (s : State) {d : Dest} (v x : Word) (hd : d ≠ .reg Config.regFlags) :
    (s.finishWrite d v fun t => t.flagUpdate x).flags = s.flags ∨
    (s.finishWrite d v fun t => t.flagUpdate x).flags = s.flags ||| Config.flagZ := by
  rcases s.finishWrite_cases d v fun t => t.flagUpdate x with ⟨u, hu, e⟩ | ⟨-, e⟩ <;> rw [e]
  · have written : u.flags = s.flags := by
      rcases State.writeDst_cases hu with ⟨r, rfl, rfl⟩ | ⟨a, -, -, rfl⟩
      · exact s.reg_setReg_other v fun h => hd (by rw [h])
      · rfl
    rw [State.flags_flagUpdate, written]
    split
    · exact .inr rfl
    · exact .inl rfl
  · exact .inl rfl

/-- FLAGS where it is not the destination: it stands, or a `sub` has set Z in it (rules R20, R104). -/
theorem flags_of_exec {i : Instr} {s t : State} (h : exec i s = .next t) (hbif : i.mnemonic ≠ .callBif)
    (hd : destOf i s ≠ some (.reg Config.regFlags)) :
    t.flags = s.flags ∨ ((∃ dst b c, i = .sub dst b c) ∧ t.flags = s.flags ||| Config.flagZ) := by
  cases i with
  | sub dst b c =>
    have fetched : (s.advance (1 + c.extraWords)).flags = s.flags := s.flags_advance _
    rcases aluStep_total (fun x y => aluSub x y) (fun r t => t.flagUpdate r) dst b c s with e | ⟨r, e⟩ <;>
      obtain rfl := next_inj (e.symm.trans h)
    · exact .inl fetched
    · have dest : (s.advance (1 + c.extraWords)).dst dst ≠ .reg Config.regFlags := fun e => hd (congrArg some e)
      rw [← fetched]
      exact (State.flags_finishWrite_flagUpdate _ r r dest).imp_right fun e => ⟨⟨dst, b, c, rfl⟩, e⟩
  | _ => exact .inl (onlySubUpdatesTheFlag.2 _ s t (by nofun) hbif h hd)

/-- `FLAG_Z` is bit 1 alone (rule R20). -/
theorem flagZ_getLsbD (n : Nat) : Config.flagZ.getLsbD n = decide (1 = n) := by
  have twoPow : Config.flagZ = BitVec.twoPow 32 1 := by decide
  simp [twoPow, BitVec.getLsbD_twoPow]

/-- Settles O57: the frame of any instruction, for `sub`, and of FLAGS the one bit that its update sets. -/
theorem frameOfSub : Obligations.FrameOfSub := by
  unfold Obligations.FrameOfSub
  intro dst b c s t h
  have effect := exec_effect h
  refine ⟨fun r hip hflags hd => effect.reg_frame nofun (fun _ => hflags) hip hd, fun hd n hn => ?_,
    fun k hk => effect.readByte_frame nofun hk, ?_⟩
  · rcases flags_of_exec h nofun hd with e | ⟨-, e⟩ <;> rw [e]
    rw [BitVec.getLsbD_or, flagZ_getLsbD, decide_eq_false (Ne.symm hn), Bool.or_false]
  · rcases effect.sameOutside nofun with same | ⟨e, -⟩ | ⟨e, -⟩
    · exact same
    all_goals cases e

/-- A fetch that fails leaves FLAGS. -/
theorem State.flags_of_fetch_error {s t : State} (h : s.fetch = .error t) : t.flags = s.flags := by
  rcases State.fetch_error h with rfl | rfl | rfl
  · rfl
  all_goals exact s.flags_advance 1

/-- Settles O44: FLAGS stands, or a `sub` sets bit 1 in it. -/
theorem zeroFlagIsSticky : Obligations.ZeroFlagIsSticky := by
  unfold Obligations.ZeroFlagIsSticky
  intro s t hr h hfetch
  have flags : t.flags = s.flags ∨
      ((∃ dst b c, s.fetch = .ok (.sub dst b c)) ∧ t.flags = s.flags ||| Config.flagZ) := by
    rcases step_running hr with ⟨i, hf, e⟩ | ⟨u, hf, e⟩
    · obtain ⟨hbif, hd⟩ := hfetch i hf
      refine (flags_of_exec (e.symm.trans h) hbif hd).imp_right ?_
      rintro ⟨⟨dst, b, c, rfl⟩, set⟩
      exact ⟨⟨dst, b, c, hf⟩, set⟩
    · exact .inl (State.flags_of_fetch_error (next_inj (e.symm.trans h) ▸ hf))
  rcases flags with e | ⟨sub, e⟩ <;> rw [State.zeroFlag, State.zeroFlag, e]
  · exact ⟨id, fun clear set => absurd set (by rw [clear]; nofun)⟩
  · exact ⟨fun set => by rw [BitVec.getLsbD_or, set, Bool.true_or], fun _ _ => sub⟩

end Sys2Proof.Machine
end

section
/-! How `halt`, `move`, the arithmetic and logic instructions and the branches complete and fail
(rules R115 to R139). -/

namespace Sys2Proof.Machine

/-! ### The write-back -/

/-- A destination holds the word just written to it (rules R84, R88). -/
theorem State.readDest_of_writeDst {s t : State} {d : Dest} {v : Word} (h : s.writeDst d v = some t) :
    t.readDest d = v := by
  rcases State.writeDst_cases h with ⟨r, rfl, rfl⟩ | ⟨a, rfl, -, rfl⟩
  · exact s.reg_setReg_same r v
  · rw [State.readDest, Memory.readWord_writeWord, if_pos rfl]

/-- A destination that can be written is: the word is there, `RUN` stands, and what follows the write is done. -/
theorem State.finishWrite_of_writable {s : State} {d : Dest} (h : d.writable s.params = true) (v : Word)
    (after : State → State) :
    ∃ u, s.writeDst d v = some u ∧ s.finishWrite d v after = after u ∧ u.run = s.run ∧ u.readDest d = v := by
  rcases s.finishWrite_cases d v after with ⟨u, hu, e⟩ | ⟨hn, -⟩
  · exact ⟨u, hu, e, State.run_of_writeDst hu, State.readDest_of_writeDst hu⟩
  · rw [← s.writeDst_isSome d v, hn] at h
    cases h

/-- A destination that cannot be written ends the step with nothing written (rules R88, R109). -/
theorem State.finishWrite_of_not_writable {s : State} {d : Dest} (h : d.writable s.params = false) (v : Word)
    (after : State → State) : s.finishWrite d v after = s.fail .outOfRange := by
  rcases s.finishWrite_cases d v after with ⟨u, hu, -⟩ | ⟨-, e⟩
  · rw [← s.writeDst_isSome d v, hu] at h
    cases h
  · exact e

/-! ### `halt` and `move` -/

/-- Settles O32: one IP increment and `RUN`. -/
theorem haltStopsTheMachine : Obligations.HaltStopsTheMachine := by
  unfold Obligations.HaltStopsTheMachine
  intro s
  exact ⟨_, exec_halt s, rfl, s.ip_advance 1, fun _ hr => s.reg_advance_other 1 hr, rfl, s.sameOutside_refl⟩

/-- `move` with a readable source is one write-back. -/
theorem exec_move_of_effC {dst : Operand} {src : COperand} {s : State} {v : Word}
    (hv : (s.advance (1 + src.extraWords)).effC src = some v) :
    exec (.move dst src) s
      = .next ((s.advance (1 + src.extraWords)).finishWrite ((s.advance (1 + src.extraWords)).dst dst) v id) := by
  simp only [exec_move, execMove, hv]

/-- Settles O33: the write-back of the source's value. -/
theorem moveCopiesTheSource : Obligations.MoveCopiesTheSource := by
  unfold Obligations.MoveCopiesTheSource
  intro dst src s v hv hw
  obtain ⟨u, -, e, run, written⟩ := State.finishWrite_of_writable (s := s.advance (1 + src.extraWords)) hw v id
  exact ⟨u, (exec_move_of_effC hv).trans (congrArg _ e), run, written⟩

/-- `move` fails after its fetches where the source or the destination is out of range. -/
theorem exec_move_outOfRange {dst : Operand} {src : COperand} {s : State}
    (h : (s.advance (1 + src.extraWords)).effC src = none ∨
      ((s.advance (1 + src.extraWords)).dst dst).writable s.params = false) :
    exec (.move dst src) s = .next ((s.advance (1 + src.extraWords)).fail .outOfRange) := by
  rcases execMove_cases dst src s with e | ⟨v, hv, e⟩ <;> rw [exec_move, e]
  rcases h with h | h
  · rw [hv] at h
    cases h
  · rw [State.finishWrite_of_not_writable (s := s.advance (1 + src.extraWords)) h]

/-- Settles O34: the failure comes after the fetches and before the write. -/
theorem moveFailsOutOfRange : Obligations.MoveFailsOutOfRange := by
  unfold Obligations.MoveFailsOutOfRange
  intro dst src s h
  exact ⟨_, exec_move_outOfRange h, s.failsAt_fail_advance _ .outOfRange⟩

/-! ### Arithmetic and logic -/

/-- An instruction of the common shape whose operands resolve and whose operation succeeds ends in what follows its
write, which leaves the result in the destination. -/
theorem aluStep_of_resolves {op : Word → Word → Except FailKind Word} (after : Word → State → State)
    {dst b : Operand} {c : COperand} {s : State} {x y r : Word} (h : s.Resolves dst b c x y) (hop : op x y = .ok r) :
    ∃ u, (s.advance (1 + c.extraWords)).writeDst ((s.advance (1 + c.extraWords)).dst dst) r = some u ∧
      aluStep op after dst b c s = .next (after r u) ∧ u.run = s.run ∧
      u.readDest ((s.advance (1 + c.extraWords)).dst dst) = r := by
  obtain ⟨hb, hc, hw⟩ := h
  obtain ⟨u, hu, -, run, written⟩ := State.finishWrite_of_writable (s := s.advance (1 + c.extraWords)) hw r (after r)
  exact ⟨u, hu, aluStep_of_writeDst after hb hc hop hu, run, written⟩

/-- An instruction of the common shape without a flag update completes with its operation's result. -/
theorem aluStep_completes {op : Word → Word → Except FailKind Word} {dst b : Operand} {c : COperand} {s : State}
    {x y r : Word} (h : s.Resolves dst b c x y) (hop : op x y = .ok r) :
    ∃ t, aluStep op keepFlags dst b c s = .next t ∧ t.run = s.run ∧
      t.readDest ((s.advance (1 + c.extraWords)).dst dst) = r := by
  obtain ⟨u, -, e, run, written⟩ := aluStep_of_resolves keepFlags h hop
  exact ⟨u, e, run, written⟩

/-- Settles O35: the operation of `add` on natural numbers. -/
theorem addWritesTheSum : Obligations.AddWritesTheSum := by
  unfold Obligations.AddWritesTheSum
  intro dst b c s x y h
  obtain ⟨t, e, run, written⟩ := aluStep_completes (op := fun x y => .ok (aluAdd x y)) h rfl
  exact ⟨t, e, run, by rw [written, aluAdd, BitVec.toNat_add]⟩

/-- The difference on natural numbers (rule R122). -/
theorem toNat_aluSub (x y : Word) : (aluSub x y).toNat = (x.toNat + (2 ^ 32 - y.toNat)) % 2 ^ 32 := by
  rw [aluSub, BitVec.toNat_sub, Nat.add_comm]

/-- The difference is zero exactly for equal words (rule R122). -/
theorem aluSub_eq_zero_iff (x y : Word) : aluSub x y = 0 ↔ x = y := by
  simp [aluSub, BitVec.sub_eq_iff_eq_add]

/-- The flag update leaves a destination other than FLAGS. -/
theorem State.readDest_flagUpdate (u : State) (x : Word) {d : Dest} (hd : d ≠ .reg Config.regFlags) :
    (u.flagUpdate x).readDest d = u.readDest d := by
  obtain ⟨hreg, hmem, -⟩ := State.flagUpdate_frame x u
  cases d with
  | reg r => exact hreg r fun e => hd (by rw [Option.some.inj e])
  | mem a => rw [State.readDest, hmem, State.readDest]

/-- Settles O36: the write of the difference, then the flag update on what the write left. -/
theorem subWritesTheDifference : Obligations.SubWritesTheDifference := by
  unfold Obligations.SubWritesTheDifference
  intro dst b c s x y h
  obtain ⟨u, hu, e, run, written⟩ :=
    aluStep_of_resolves (op := fun x y => .ok (aluSub x y)) (fun r t => t.flagUpdate r) h rfl
  have flags : (u.flagUpdate (aluSub x y)).flags = if x = y then u.flags ||| Config.flagZ else u.flags := by
    simp only [State.flags_flagUpdate, aluSub_eq_zero_iff]
  refine ⟨_, e, (u.flagUpdate_run _).trans run, fun hd => ⟨?_, ?_⟩, fun hd => ?_⟩
  · rw [State.readDest_flagUpdate _ _ hd, written, toNat_aluSub]
  · have stands : u.flags = s.flags := by
      rcases State.writeDst_cases hu with ⟨r, hr, rfl⟩ | ⟨a, -, -, rfl⟩
      · exact (State.reg_setReg_other _ _ fun e => hd (by rw [hr, e])).trans (s.flags_advance _)
      · exact s.flags_advance _
    rw [flags, stands]
    rfl
  · have result : u.flags = aluSub x y := by rw [← written, hd]; rfl
    rw [flags, result]
    split
    · rw [(aluSub_eq_zero_iff x y).mpr ‹_›]
      rfl
    · rw [toNat_aluSub]

/-- Settles O37: the operation of `mul` on natural numbers. -/
theorem mulWritesTheLowProduct : Obligations.MulWritesTheLowProduct := by
  unfold Obligations.MulWritesTheLowProduct
  intro dst b c s x y h
  obtain ⟨t, e, run, written⟩ := aluStep_completes (op := fun x y => .ok (aluMul x y)) h rfl
  exact ⟨t, e, run, by rw [written, aluMul, BitVec.toNat_mul]⟩

/-- Settles O38: the operation of `div` on natural numbers. -/
theorem divWritesTheFloorQuotient : Obligations.DivWritesTheFloorQuotient := by
  unfold Obligations.DivWritesTheFloorQuotient
  intro dst b c s x y h hy
  obtain ⟨t, e, run, written⟩ := aluStep_completes (op := aluDiv) h (if_neg hy)
  exact ⟨t, e, run, by rw [written, BitVec.toNat_udiv]⟩

/-- A logical shift right is a division (rule R125). -/
theorem aluShr_eq (x y : Word) :
    aluShr x y = if y.toNat < 32 then BitVec.ofNat 32 (x.toNat / 2 ^ y.toNat) else Config.shiftWide .shr x y := by
  unfold aluShr
  split
  · have bound := Nat.lt_of_le_of_lt (Nat.div_le_self x.toNat (2 ^ y.toNat)) x.isLt
    exact BitVec.eq_of_toNat_eq (by
      rw [BitVec.toNat_ushiftRight, Nat.shiftRight_eq_div_pow, BitVec.toNat_ofNat, Nat.mod_eq_of_lt bound])
  · rfl

/-- A shift left is a multiplication (rule R126). -/
theorem aluShl_eq (x y : Word) :
    aluShl x y = if y.toNat < 32 then BitVec.ofNat 32 (x.toNat * 2 ^ y.toNat) else Config.shiftWide .shl x y := by
  unfold aluShl
  split
  · exact BitVec.eq_of_toNat_eq (by rw [BitVec.toNat_shiftLeft, Nat.shiftLeft_eq, BitVec.toNat_ofNat])
  · rfl

/-- Settles O39: the operation of `shr` on natural numbers. -/
theorem shrShiftsRight : Obligations.ShrShiftsRight := by
  unfold Obligations.ShrShiftsRight
  intro dst b c s x y h
  obtain ⟨t, e, run, written⟩ := aluStep_completes (op := fun x y => .ok (aluShr x y)) h rfl
  exact ⟨t, e, run, by rw [written, aluShr_eq]⟩

/-- Settles O40: the operation of `shl` on natural numbers. -/
theorem shlShiftsLeft : Obligations.ShlShiftsLeft := by
  unfold Obligations.ShlShiftsLeft
  intro dst b c s x y h
  obtain ⟨t, e, run, written⟩ := aluStep_completes (op := fun x y => .ok (aluShl x y)) h rfl
  exact ⟨t, e, run, by rw [written, aluShl_eq]⟩

/-- Settles O41: the operations of `nand` and `xor` bit by bit. -/
theorem nandAndXorAreBitwise : Obligations.NandAndXorAreBitwise := by
  unfold Obligations.NandAndXorAreBitwise
  intro dst b c s x y h
  obtain ⟨t, e, run, written⟩ := aluStep_completes (op := fun x y => .ok (aluNand x y)) h rfl
  obtain ⟨t', e', run', written'⟩ := aluStep_completes (op := fun x y => .ok (aluXor x y)) h rfl
  refine ⟨⟨t, e, run, fun n hn => ?_⟩, t', e', run', fun n hn => ?_⟩
  · rw [written, aluNand, BitVec.getLsbD_not, BitVec.getLsbD_and, decide_eq_true hn, Bool.true_and]
  · rw [written', aluXor, BitVec.getLsbD_xor]

/-- An instruction of the common shape whose operation succeeds wherever its sources are readable fails after its
fetches where a source or the destination is out of range. -/
theorem aluStep_outOfRange {op : Word → Word → Except FailKind Word} (after : Word → State → State)
    {dst b : Operand} {c : COperand} {s : State}
    (hop : ∀ x y, (s.advance (1 + c.extraWords)).effB b = some x → (s.advance (1 + c.extraWords)).effC c = some y →
      ∃ r, op x y = .ok r)
    (h : (s.advance (1 + c.extraWords)).effB b = none ∨ (s.advance (1 + c.extraWords)).effC c = none ∨
      ((s.advance (1 + c.extraWords)).dst dst).writable s.params = false) :
    aluStep op after dst b c s = .next ((s.advance (1 + c.extraWords)).fail .outOfRange) := by
  cases hb : (s.advance (1 + c.extraWords)).effB b with
  | none => simp only [aluStep, hb]
  | some x =>
    cases hc : (s.advance (1 + c.extraWords)).effC c with
    | none => simp only [aluStep, hb, hc]
    | some y =>
      obtain ⟨r, hr⟩ := hop x y hb hc
      simp only [hb, hc, reduceCtorEq, false_or] at h
      simp only [aluStep, hb, hc, hr, State.finishWrite_of_not_writable (s := s.advance (1 + c.extraWords)) h]

/-- The instructions of the common shape whose operation never fails. -/
theorem exec_eq_aluStep_of_mem {dst b : Operand} {c : COperand} {i : Instr}
    (hi : i ∈ [Instr.add dst b c, .sub dst b c, .mul dst b c, .shr dst b c, .shl dst b c, .nand dst b c,
      .xor dst b c]) :
    ∃ (op : Word → Word → Word) (after : Word → State → State),
      ∀ s, exec i s = aluStep (fun x y => .ok (op x y)) after dst b c s := by
  simp only [List.mem_cons, List.not_mem_nil, or_false] at hi
  rcases hi with rfl | rfl | rfl | rfl | rfl | rfl | rfl
  · exact ⟨aluAdd, keepFlags, fun _ => rfl⟩
  · exact ⟨aluSub, fun r t => t.flagUpdate r, fun _ => rfl⟩
  · exact ⟨aluMul, keepFlags, fun _ => rfl⟩
  · exact ⟨aluShr, keepFlags, fun _ => rfl⟩
  · exact ⟨aluShl, keepFlags, fun _ => rfl⟩
  · exact ⟨aluNand, keepFlags, fun _ => rfl⟩
  · exact ⟨aluXor, keepFlags, fun _ => rfl⟩

/-- Settles O42: the failure comes after the fetches and before the write. -/
theorem arithmeticFailsOutOfRange : Obligations.ArithmeticFailsOutOfRange := by
  unfold Obligations.ArithmeticFailsOutOfRange
  intro dst b c s i hi h
  obtain ⟨op, after, exec_eq⟩ := exec_eq_aluStep_of_mem hi
  exact ⟨_, (exec_eq s).trans (aluStep_outOfRange after (fun x y _ _ => ⟨op x y, rfl⟩) h),
    s.failsAt_fail_advance _ .outOfRange⟩

/-- Settles O24: each failure of `div` where those before it are excluded. -/
theorem firstFailureInPhaseOrder : Obligations.FirstFailureInPhaseOrder := by
  unfold Obligations.FirstFailureInPhaseOrder
  intro dst b c s
  have fails (k : FailKind) := s.failsAt_fail_advance (1 + c.extraWords) k
  have outOfRange := aluStep_outOfRange (op := aluDiv) keepFlags (dst := dst) (b := b) (c := c) (s := s)
  refine ⟨fun hb => ?_, fun x hb => ⟨fun hc => ?_, fun hc => ?_, fun y hc hy hw => ?_⟩⟩
  · exact ⟨_, outOfRange (fun _ _ hx _ => by rw [hb] at hx; cases hx) (.inl hb), fails .outOfRange⟩
  · exact ⟨_, outOfRange (fun _ y _ hy => by rw [hc] at hy; cases hy) (.inr (.inl hc)), fails .outOfRange⟩
  · exact ⟨_, exec_div_zero hb hc, fails .illegalOperation⟩
  · refine ⟨_, outOfRange (fun x' y' _ hy' => ⟨x' / y', if_neg ?_⟩) (.inr (.inr hw)), fails .outOfRange⟩
    rw [hc] at hy'
    exact Option.some.inj hy' ▸ hy

/-! ### Branches -/

/-- The fetches move IP alone. -/
theorem State.onlyIp_advance (s : State) (n : Nat) : State.OnlyIp s (s.advance n) (s.ip + BitVec.ofNat 32 n) :=
  ⟨s.ip_advance n, fun _ hr => s.reg_advance_other n hr, rfl, rfl, s.sameOutside_refl⟩

/-- A jump after the fetches moves IP alone. -/
theorem State.onlyIp_setIp_advance (s : State) (n : Nat) (v : Word) : State.OnlyIp s ((s.advance n).setIp v) v :=
  ⟨State.ip_setIp _ v, fun _ hr => (State.reg_setIp_other _ v hr).trans (s.reg_advance_other n hr), rfl, rfl,
    s.sameOutside_refl⟩

/-- A branch with a readable target moves IP alone, to the target or past its own words (rules R135 to R139). -/
theorem branchStep_onlyIp {taken : State → Bool} {target : COperand} {s : State} {v : Word}
    (hv : (s.advance (1 + target.extraWords)).effC target = some v) :
    ∃ t, branchStep taken target s = .next t ∧ State.OnlyIp s t
      (if taken (s.advance (1 + target.extraWords)) = true then v
        else s.ip + BitVec.ofNat 32 (1 + target.extraWords)) := by
  have e : branchStep taken target s = .next (if taken (s.advance (1 + target.extraWords)) = true
      then (s.advance (1 + target.extraWords)).setIp v else s.advance (1 + target.extraWords)) := by
    simp only [branchStep, hv]
  refine ⟨_, e, ?_⟩
  split
  · exact s.onlyIp_setIp_advance _ v
  · exact s.onlyIp_advance _

/-- Settles O45: the branch that is always taken. -/
theorem brJumpsToTheTarget : Obligations.BrJumpsToTheTarget := by
  unfold Obligations.BrJumpsToTheTarget
  intro target s v hv
  exact branchStep_onlyIp (taken := fun _ => true) hv

/-- Settles O46: the branch that is taken on a clear Z. -/
theorem brzBranchesOnZClear : Obligations.BrzBranchesOnZClear := by
  unfold Obligations.BrzBranchesOnZClear
  intro target s v hv
  have branch := branchStep_onlyIp (taken := fun t => !t.zeroFlag) hv
  simp only [State.zeroFlag_advance, Bool.not_eq_true'] at branch
  exact branch

/-- Settles O47: the branch that is taken on a set Z. -/
theorem brnzBranchesOnZSet : Obligations.BrnzBranchesOnZSet := by
  unfold Obligations.BrnzBranchesOnZSet
  intro target s v hv
  have branch := branchStep_onlyIp (taken := fun t => t.zeroFlag) hv
  simp only [State.zeroFlag_advance] at branch
  exact branch

/-- A branch fails on an unreadable target, taken or not (rules R101, R136). -/
theorem branchStep_outOfRange (taken : State → Bool) {target : COperand} {s : State}
    (h : (s.advance (1 + target.extraWords)).effC target = none) :
    branchStep taken target s = .next ((s.advance (1 + target.extraWords)).fail .outOfRange) := by
  simp only [branchStep, h]

/-- Settles O48: the target is resolved before the flag is looked at. -/
theorem branchesResolveTheirTargetFirst : Obligations.BranchesResolveTheirTargetFirst := by
  unfold Obligations.BranchesResolveTheirTargetFirst
  intro target s i hi h
  have fails := s.failsAt_fail_advance (1 + target.extraWords) .outOfRange
  simp only [List.mem_cons, List.not_mem_nil, or_false] at hi
  rcases hi with rfl | rfl | rfl
  · exact ⟨_, (exec_br target s).trans (branchStep_outOfRange _ h), fails⟩
  · exact ⟨_, (exec_brz target s).trans (branchStep_outOfRange _ h), fails⟩
  · exact ⟨_, (exec_brnz target s).trans (branchStep_outOfRange _ h), fails⟩

end Sys2Proof.Machine
end

section
/-! How `in`, `out` and `bif` complete, wait and fail (rules R110, R140 to R145, R152). -/

namespace Sys2Proof.Machine

/-! ### `in` -/

/-- A supplied byte is taken from the front of `IN` (rule R152). -/
theorem State.inByte_of_cons {s : State} {byte : Byte} {rest : List Byte} (h : s.input = byte :: rest) :
    s.inByte = some (byte.setWidth 32, { s with input := rest }) := by
  simp only [State.inByte, h]

/-- At the end of `IN` the byte is `IN_EOF` and nothing is taken (rule R152). -/
theorem State.inByte_of_ended {s : State} (h : s.input = []) (hend : s.inputEnded = true) :
    s.inByte = some (s.params.inEof, s) := by
  simp only [State.inByte, h, hend, if_true]

/-- A C operand names a destination exactly if it is no literal (rule R85, decision D11). -/
theorem State.dstC_isSome (s : State) (c : COperand) : (s.dstC c).isSome = c.isLocation := by
  cases c <;> rfl

/-- `in` with a destination and a byte, or the end of `IN`, is one write-back. -/
theorem exec_inp_of_inByte {c : COperand} {d : Dest} {s s2 : State} {v : Word}
    (hd : (s.advance (1 + c.extraWords)).dstC c = some d)
    (hin : (s.advance (1 + c.extraWords)).inByte = some (v, s2)) :
    exec (.inp c) s = .next (s2.finishWrite d v id) := by
  simp only [exec_inp, execInp, hd, hin]

/-- `in` with a destination it can write stores what `InByte()` gave and changes nothing else outside. -/
theorem exec_inp_completes {c : COperand} {d : Dest} {s s2 : State} {v : Word}
    (hd : (s.advance (1 + c.extraWords)).dstC c = some d) (hw : d.writable s.params = true)
    (hin : (s.advance (1 + c.extraWords)).inByte = some (v, s2)) :
    ∃ t, exec (.inp c) s = .next t ∧ t.run = s.run ∧ t.readDest d = v ∧ State.SameOutside s2 t := by
  rw [← s.advance_params (1 + c.extraWords), ← (State.ahead_of_inByte hin).params] at hw
  obtain ⟨u, -, e, run, written⟩ := State.finishWrite_of_writable hw v id
  have same := s2.sameOutside_finishWrite d v (after := id) State.sameOutside_refl
  rw [e] at same
  exact ⟨u, (exec_inp_of_inByte hd hin).trans (congrArg _ e),
    run.trans ((State.run_of_inByte hin).trans (s.advance_run _)), written, same⟩

/-- Settles O49: the write-back of what `InByte()` gives, of a byte and at the end. -/
theorem inStoresTheNextByte : Obligations.InStoresTheNextByte := by
  unfold Obligations.InStoresTheNextByte
  refine fun c d s hd hw => ⟨fun byte rest hbyte => ?_, fun hempty hend => ?_⟩
  · obtain ⟨t, e, run, written, hin, -⟩ :=
      exec_inp_completes hd hw (State.inByte_of_cons (s := s.advance (1 + c.extraWords)) hbyte)
    refine ⟨t, e, run, ?_, hin⟩
    rw [written, BitVec.toNat_setWidth, Nat.mod_eq_of_lt (Nat.lt_trans byte.isLt (by decide))]
  · obtain ⟨t, e, run, written, hin, hended, -⟩ :=
      exec_inp_completes hd hw (State.inByte_of_ended (s := s.advance (1 + c.extraWords)) hempty hend)
    have still_ended := hended.trans hend
    exact ⟨t, e, run, written, hin.trans hempty, still_ended, State.hostAct_ended still_ended⟩

/-- A waiting `in` leaves the state as it is (rule R110). -/
theorem exec_inp_waits {c : COperand} {s : State} (hc : c.isLocation = true) (hw : s.waiting = true) :
    exec (.inp c) s = .next s := by
  obtain ⟨d, hd⟩ := Option.isSome_iff_exists.mp (((s.advance (1 + c.extraWords)).dstC_isSome c).trans hc)
  have none : (s.advance (1 + c.extraWords)).inByte = none := (State.inByte_eq_none_iff _).mpr hw
  simp only [exec_inp, execInp, hd, none]

/-- Settles O50: the hold comes before the write, the byte before the write's failure, and the literal before both. -/
theorem inWaitsOrFails : Obligations.InWaitsOrFails := by
  unfold Obligations.InWaitsOrFails
  refine ⟨fun c s hc hempty hend => ?_, fun c d s byte rest hd hw hbyte => ?_, fun c d s hd hw hempty hend => ?_,
    fun v s => ⟨_, rfl, s.failsAt_fail_advance 1 .illegalInstruction⟩⟩
  · exact exec_inp_waits hc (by rw [State.waiting, hempty, hend]; rfl)
  · have e := exec_inp_of_inByte hd (State.inByte_of_cons (s := s.advance (1 + c.extraWords)) hbyte)
    rw [State.finishWrite_of_not_writable (s := { s.advance (1 + c.extraWords) with input := rest }) hw] at e
    exact ⟨_, e, State.failsAt_fail_advance { s with input := rest } _ .outOfRange⟩
  · have e := exec_inp_of_inByte hd (State.inByte_of_ended (s := s.advance (1 + c.extraWords)) hempty hend)
    rw [State.finishWrite_of_not_writable (s := s.advance (1 + c.extraWords)) hw] at e
    exact ⟨_, e, s.failsAt_fail_advance _ .outOfRange⟩

/-- Under a host that does nothing, a running machine whose step changes nothing is never over. -/
theorem State.runsForever_of_step_self {s : State} (hr : s.run = .running) (h : step s = .next s) :
    State.RunsForever s fun _ => .nothing := by
  intro n
  refine ⟨s, ?_, hr⟩
  induction n with
  | zero => rfl
  | succ n ih =>
    rw [hostPrefix_succ, State.runThrough_append ih,
      State.runThrough_running hr (by rw [State.hostAct_nothing, h]), State.runThrough_nil]

/-- Settles O51: a waiting `in` repeats itself under a host that does nothing, and one with a byte or the end
completes. -/
theorem hostLiftsTheHoldOfIn : Obligations.HostLiftsTheHoldOfIn := by
  unfold Obligations.HostLiftsTheHoldOfIn
  refine ⟨fun c s hr hf hw => ?_, fun c d s hd hwrite hw => ?_⟩
  · have stays : step s = .next s :=
      (step_of_fetch_ok hr hf).trans (exec_inp_waits (State.wellFormed_of_fetch hf) hw)
    exact State.runsForever_of_step_self hr stays
  · simp only [State.waiting, Bool.and_eq_true, List.isEmpty_iff, Bool.not_eq_true'] at hw
    obtain ⟨hempty, hopen⟩ := hw
    refine ⟨fun byte => ?_, ?_⟩
    · rw [State.supplyInput_open hopen, hempty, List.nil_append]
      obtain ⟨t, e, -, written, hin⟩ := (inStoresTheNextByte c d { s with input := [byte] } hd hwrite).1 byte [] rfl
      exact ⟨t, e, written, hin⟩
    · obtain ⟨t, e, -, written, -⟩ := (inStoresTheNextByte c d s.endInput hd hwrite).2 hempty rfl
      exact ⟨t, e, written⟩

/-! ### `out` -/

/-- Settles O52: the byte is appended before or after the fetches all the same, and an unreadable operand comes
first. -/
theorem outAppendsTheLowByte : Obligations.OutAppendsTheLowByte := by
  unfold Obligations.OutAppendsTheLowByte
  refine fun src s => ⟨fun v hv => ?_, fun h => ?_⟩
  · have e : exec (.out src) s = .next ((s.advance (1 + src.extraWords)).outByte (v.setWidth 8)) := by
      simp only [exec_out, execOut, hv]
    exact ⟨_, v.setWidth 8, e, BitVec.toNat_setWidth 8 v, rfl,
      State.onlyIp_advance { s with output := s.output ++ [v.setWidth 8] } _⟩
  · have e : exec (.out src) s = .next ((s.advance (1 + src.extraWords)).fail .outOfRange) := by
      simp only [exec_out, execOut, h]
    exact ⟨_, e, s.failsAt_fail_advance _ .outOfRange⟩

/-! ### `bif` -/

/-- `bif` of an id below `BIF_COUNT` is a call (rule R142). -/
theorem exec_callBif_below {c : COperand} {s : State} {v : Word}
    (hv : (s.advance (1 + c.extraWords)).effC c = some v) (h : v.toNat < s.params.bifCount) :
    exec (.callBif c) s = .next ((s.advance (1 + c.extraWords)).bifCall v.toNat) := by
  simp [exec_callBif, execBif, hv, h]

/-- Settles O53: the call of `hello`. -/
theorem helloWritesItsGreeting : Obligations.HelloWritesItsGreeting := by
  unfold Obligations.HelloWritesItsGreeting
  intro c s hv h
  exact ⟨_, exec_callBif_below hv h, rfl,
    State.onlyIp_advance { s with output := s.output ++ s.params.helloText } (1 + c.extraWords)⟩

/-- Settles O54: a call leads ahead, which is the contract; and but for `hello` it leaves its handler's answer. -/
theorem handlersKeepTheirContract : Obligations.HandlersKeepTheirContract := by
  unfold Obligations.HandlersKeepTheirContract
  intro c s v hv h
  have ahead := (s.advance (1 + c.extraWords)).ahead_bifCall v.toNat
  refine ⟨_, exec_callBif_below hv h, State.bifCall_run _ _, ahead.params, ahead.inputEnded, ahead.output, ahead.input,
    fun k hk => ?_, fun hne e he => ?_⟩
  · obtain ⟨ws, hws⟩ := ahead.mem
    rw [hws]
    exact storeAll_readByte_outside ws s.mem (legalAddr_of_memWords_le hk)
  · have other : v.toNat ≠ 0 := fun e => hne (BitVec.eq_of_toNat_eq e)
    have call : (s.advance (1 + c.extraWords)).bifCall v.toNat = (s.advance (1 + c.extraWords)).applyEffect e := by
      rw [State.bifCall_other _ other, he]
      rfl
    rw [call]
    exact ⟨rfl, fun a ha => storeAll_readWord e.writes s.mem ((legalAddr_iff _ _).mpr ha), rfl, rfl, fun _ => rfl⟩

/-- Settles O55: the id is compared before any handler runs, and an unreadable operand comes before that. -/
theorem bifFailsAboveTheTable : Obligations.BifFailsAboveTheTable := by
  unfold Obligations.BifFailsAboveTheTable
  refine fun c s => ⟨fun v hv h => ?_, fun h => ?_⟩
  · exact ⟨_, exec_callBif_above hv h, s.failsAt_fail_advance _ .invalidBif⟩
  · have e : exec (.callBif c) s = .next ((s.advance (1 + c.extraWords)).fail .outOfRange) := by
      simp only [exec_callBif, execBif, h]
    exact ⟨_, e, s.failsAt_fail_advance _ .outOfRange⟩

end Sys2Proof.Machine
end

section
/-! Launch and reset, `Run`, and the statuses (rules R27, R31, R108, R144, R151, R155, R185, R192). -/

namespace Sys2Proof.Machine

/-! ### Launch and reset -/

/-- Image bytes are words exactly if they are a whole number of words, and then as many as they hold (rule R151). -/
theorem imageWords_eq_some_length {image : List Byte} {n : Nat} :
    (∃ ws, imageWords image = some ws ∧ ws.length = n) ↔ 4 ∣ image.length ∧ image.length / 4 = n := by
  obtain ⟨whole, broken⟩ := imageWords_spec image
  cases h : imageWords image with
  | none => simp [broken h]
  | some ws =>
    have len := (whole ws h).1
    simp only [Option.some.injEq, exists_eq_left']
    omega

/-- Settles O10: the words of an image and the launch's bounds. -/
theorem resetExactlyForLegalImages : Obligations.ResetExactlyForLegalImages := by
  unfold Obligations.ResetExactlyForLegalImages
  intro l image
  rw [Option.isSome_iff_exists]
  constructor
  · rintro ⟨s, hs⟩
    obtain ⟨ws, hws, ⟨hfit, hbif⟩, -⟩ := State.launch_eq_some_iff.mp hs
    obtain ⟨hdvd, hlen⟩ := imageWords_eq_some_length.mp ⟨ws, hws, rfl⟩
    exact ⟨hdvd, hlen ▸ hfit, hbif⟩
  · rintro ⟨hdvd, hfit, hbif⟩
    obtain ⟨ws, hws, hlen⟩ := imageWords_eq_some_length.mpr ⟨hdvd, rfl⟩
    exact ⟨_, State.launch_eq_some_iff.mpr ⟨ws, hws, ⟨hlen ▸ hfit, hbif⟩, rfl⟩⟩

/-- Settles O13: a launch writes the words of the image and of the stack area from address 0 up, all below
`MEM_WORDS`. -/
theorem launchMeetsTheInvariant : Obligations.LaunchMeetsTheInvariant := by
  unfold Obligations.LaunchMeetsTheInvariant
  intro l image s h
  obtain ⟨ws, -, ⟨hfit, hbif⟩, rfl⟩ := State.launch_eq_some_iff.mp h
  have params : Params.wf (State.launchWords l ws).params = true := by
    rw [Params.wf, Bool.and_eq_true, decide_eq_true_eq, decide_eq_true_eq]
    exact ⟨hfit, hbif⟩
  have placed : 0 + (ws ++ l.resetMem.take l.stackReserve).length ≤ memWords (State.launchWords l ws).params := by
    simp only [List.length_append, List.length_take, memWords, State.launchWords]
    omega
  exact ⟨params, Memory.writeWords_wf 0 _ Memory.wf_nil, Memory.writeWords_within _ 0 placed rfl⟩

/-- The host's choices that make `State.reset` (log 3, log 4, log 5). -/
def resetLaunch : Launch where
  stackReserve := Config.stackReserve.val
  bifCount := Config.otherBifs + 1
  inEof := Config.inEof
  helloText := Config.helloText
  resetReg := Vector.replicate 16 0
  resetMem := []
  input := []
  inputEnded := false

/-- Every register is 0 at `State.reset` (log 3). -/
theorem State.reset_reg (r : Reg) : State.reset.reg r = 0 := Vector.getElem_replicate r.isLt

/-- `State.reset` is that launch of the empty image. -/
theorem launch_resetLaunch : State.launch resetLaunch [] = some State.reset := by
  have fits : 0 + resetLaunch.stackReserve ≤ Config.maxMemWords := by
    rw [Nat.zero_add]
    exact Nat.le_of_lt_succ Config.stackReserve.isLt
  have regs (r : Reg) : (State.launchWords resetLaunch []).reg r = State.reset.reg r := by
    rw [State.launchWords_reg, State.reset_reg]
    simp [resetLaunch]
  have mem : (State.launchWords resetLaunch []).mem = State.reset.mem := by
    rw [State.launchWords, resetLaunch, List.take_nil]
    rfl
  exact State.launch_eq_some_iff.mpr ⟨[], rfl, ⟨fits, Nat.le_add_left 1 _⟩,
    State.ext_reg regs mem rfl rfl rfl rfl rfl rfl⟩

/-- Settles O11, by the launch with zero registers; SP is what every launch puts there. -/
theorem resetStateIsALaunch : Obligations.ResetStateIsALaunch := by
  unfold Obligations.ResetStateIsALaunch
  refine ⟨resetLaunch, launch_resetLaunch, rfl, rfl, rfl, rfl, fun l' image s h => ?_⟩
  obtain ⟨ws, -, -, rfl⟩ := State.launch_eq_some_iff.mp h
  rw [State.launchWords_reg, if_pos rfl]
  rfl

/-- Settles O12: `State.reset` is a launch, and every launch meets the invariant. -/
theorem resetMeetsTheInvariant : Obligations.ResetMeetsTheInvariant := by
  unfold Obligations.ResetMeetsTheInvariant
  exact launchMeetsTheInvariant resetLaunch [] _ launch_resetLaunch

/-! ### `Run` -/

/-- Every meaning answers a next state, from every state (log 10). -/
theorem exists_exec (i : Instr) (s : State) : ∃ t, exec i s = .next t := by
  cases i with
  | halt => exact ⟨_, exec_halt s⟩
  | move d c => rcases execMove_cases d c s with e | ⟨_, -, e⟩ <;> exact ⟨_, e⟩
  | inp c => rcases execInp_cases c s with ⟨-, e⟩ | ⟨-, e⟩ | ⟨_, _, _, -, -, e⟩ <;> exact ⟨_, e⟩
  | out c => rcases execOut_cases c s with e | ⟨_, -, e⟩ <;> exact ⟨_, e⟩
  | callBif c => rcases execBif_cases c s with ⟨_, e⟩ | ⟨_, -, -, e⟩ <;> exact ⟨_, e⟩
  | br c | brz c | brnz c =>
    simp only [exec_br, exec_brz, exec_brnz]
    rcases branchStep_cases _ c s with e | ⟨_, -, e⟩ <;> exact ⟨_, e⟩
  | add a b c | sub a b c | mul a b c | div a b c | shr a b c | shl a b c | nand a b c | xor a b c =>
    simp only [exec_add, exec_sub, exec_mul, exec_div, exec_shr, exec_shl, exec_nand, exec_xor]
    rcases aluStep_cases _ _ a b c s with ⟨_, e⟩ | ⟨_, _, _, -, -, -, e⟩ <;> exact ⟨_, e⟩

/-- Every step answers a next state, from every state (log 10). -/
theorem exists_step (s : State) : ∃ t, step s = .next t := by
  by_cases hr : s.run = .running
  · rcases step_running hr with ⟨i, -, e⟩ | ⟨t, -, e⟩
    · exact e ▸ exists_exec i s
    · exact ⟨t, e⟩
  · exact ⟨s, terminalStatesStay s hr⟩

/-- A run through any acts answers a state. -/
theorem State.exists_runThrough (s : State) (acts : List HostAct) : ∃ t, s.runThrough acts = .next t := by
  induction acts generalizing s with
  | nil => exact ⟨s, rfl⟩
  | cons act acts ih =>
    by_cases hr : s.run = .running
    · obtain ⟨t, ht⟩ := exists_step (s.hostAct act)
      rw [State.runThrough_running hr ht]
      exact ih t
    · exact ⟨s, State.runThrough_over hr _⟩

/-- A run that is over stays over, in the same state, whatever more the host does (rule R192). -/
theorem State.runThrough_append_of_over {s t : State} {acts : List HostAct} (h : s.runThrough acts = .next t)
    (ht : t.run ≠ .running) (more : List HostAct) : s.runThrough (acts ++ more) = .next t := by
  rw [State.runThrough_append h, State.runThrough_over ht]

/-- A host's first acts begin with its first fewer acts. -/
theorem hostPrefix_add (host : Nat → HostAct) (n k : Nat) :
    ∃ more, hostPrefix host (n + k) = hostPrefix host n ++ more := by
  rw [hostPrefix, List.range_add, List.map_append]
  exact ⟨_, rfl⟩

/-- A run that is over after some acts is over in the same state after more. -/
theorem State.runThrough_hostPrefix_of_le {s t : State} {host : Nat → HostAct} {n m : Nat}
    (h : s.runThrough (hostPrefix host n) = .next t) (ht : t.run ≠ .running) (hnm : n ≤ m) :
    s.runThrough (hostPrefix host m) = .next t := by
  obtain ⟨k, rfl⟩ := Nat.exists_eq_add_of_le hnm
  obtain ⟨more, e⟩ := hostPrefix_add host n k
  rw [e, State.runThrough_append_of_over h ht]

/-- `Run` is over in at most one state. -/
theorem State.RunEnds.unique {s t u : State} {host : Nat → HostAct} (ht : State.RunEnds s host t)
    (hu : State.RunEnds s host u) : t = u := by
  obtain ⟨n, hn, htr⟩ := ht
  obtain ⟨m, hm, hur⟩ := hu
  rcases Nat.le_total n m with le | le
  · exact next_inj ((State.runThrough_hostPrefix_of_le hn htr le).symm.trans hm)
  · exact next_inj (hn.symm.trans (State.runThrough_hostPrefix_of_le hm hur le))

/-- `Run` goes on for ever exactly if it is over in no state (rules R108, R192). -/
theorem State.runsForever_iff (s : State) (host : Nat → HostAct) :
    State.RunsForever s host ↔ ∀ t, ¬ State.RunEnds s host t := by
  constructor
  · rintro forever t ⟨n, hn, ht⟩
    obtain ⟨u, hu, running⟩ := forever n
    exact ht (next_inj (hn.symm.trans hu) ▸ running)
  · intro never n
    obtain ⟨t, ht⟩ := s.exists_runThrough (hostPrefix host n)
    exact ⟨t, ht, by_contra fun hrun => never t ⟨n, ht, hrun⟩⟩

/-- Settles O17: no meaning refuses, so every run answers a state, and a state that is over stays. -/
theorem everyStepAnswersANextState : Obligations.EveryStepAnswersANextState := by
  unfold Obligations.EveryStepAnswersANextState
  exact ⟨exists_step, fun s t act hr ht acts => State.runThrough_running hr ht acts,
    fun s t acts h ht more => State.runThrough_append_of_over h ht more,
    fun s host => ⟨s.runsForever_iff host, fun t u ht hu => ht.unique hu⟩⟩

/-! ### Statuses -/

/-- The place of a status in the host's numbering. -/
def Status.index : Status → Nat
  | .success => 0
  | .failure => 1
  | .illegalInstruction => 2
  | .divideOverflow => 3

theorem statusCode_eq (a : Status) : statusCode a = Config.statusNumbering a.index := by
  cases a <;> rfl

/-- No two statuses have one place. -/
theorem Status.index_injective : ∀ {a b : Status}, a.index = b.index → a = b
  | .success, .success, _ | .failure, .failure, _ | .illegalInstruction, .illegalInstruction, _
  | .divideOverflow, .divideOverflow, _ => rfl

/-- Settles O60: the numbering is a bijection, and the four places are distinct. -/
theorem statusesOfTerminalStates : Obligations.StatusesOfTerminalStates := by
  unfold Obligations.StatusesOfTerminalStates
  refine ⟨fun r => ?_, rfl, rfl, rfl, rfl, rfl, fun a b h => ?_⟩
  · cases r with
    | running | halted => rfl
    | failed k => cases k <;> rfl
  · rw [statusCode_eq, statusCode_eq, Config.statusNumbering.apply_eq_iff_eq] at h
    exact Status.index_injective h

end Sys2Proof.Machine
end
